-- ==== Sys2Proof/Word.lean ====
section
/-! DEFINITION. The words of the machine: bytes, the program counter's width, register indices. -/

namespace Sys2Proof

/-- A register value, a Memory cell, an operand byte: an unsigned integer 0..255 (00_scope.md R6). -/
abbrev Byte := BitVec 8

/-- A program counter value: 9 bits, so that it can hold 256 (10_state.md R24). -/
abbrev Pc := BitVec 9

/-- The index of a general register R0..R7 (10_state.md R20). -/
abbrev Reg := Fin 8

end Sys2Proof
end

