-- ==== Sys2Proof/Syntax.lean ====
section
/-! DEFINITION. The instructions, their mnemonics and their formats (30_encoding.md R71, R78). -/

namespace Sys2Proof

/-- The four instruction formats (R71). -/
inductive Format
  | f0 | f1r | f2rr | f2ri
  deriving DecidableEq, Repr

/-- The fifteen rows of the opcode map, in its order (R78). -/
inductive Mnemonic
  | ldi | prn | hlt | add | sub | mul | div | cmp | jmp | jeq | jne | push | pop | call | ret
  deriving DecidableEq, Repr

/-- A decoded instruction. `a` and `b` are the operand BYTES of 00_scope.md R9: a byte in a register
position is any value 0..255 here, because a value above 7 does not make the opcode illegal (R81); the
register check comes after decoding (40_engine_cycle.md R94). -/
inductive Instr
  | ldi (a imm : Byte)
  | prn (a : Byte)
  | hlt
  | add (a b : Byte)
  | sub (a b : Byte)
  | mul (a b : Byte)
  | div (a b : Byte)
  | cmp (a b : Byte)
  | jmp (a : Byte)
  | jeq (a : Byte)
  | jne (a : Byte)
  | push (a : Byte)
  | pop (a : Byte)
  | call (a : Byte)
  | ret
  deriving DecidableEq, Repr

end Sys2Proof
end

