-- ==== Sys2Proof/WellFormed.lean ====
section
/-! DEFINITION. When every register position of an instruction names a register (30_encoding.md R73). -/

namespace Sys2Proof

/-- A byte in a register position is valid when it is at most 7 (R73). -/
def namesRegister (v : Byte) : Bool := v.toNat ≤ 7

/-- The register check of 40_engine_cycle.md R94, format by format: operand a of F1R and F2RI, operands a and b
of F2RR, nothing of F0. The immediate of LDI has no illegal value (R74). -/
def Instr.wf : Instr → Bool
  | .ldi a _ => namesRegister a
  | .prn a => namesRegister a
  | .hlt => true
  | .add a b => namesRegister a && namesRegister b
  | .sub a b => namesRegister a && namesRegister b
  | .mul a b => namesRegister a && namesRegister b
  | .div a b => namesRegister a && namesRegister b
  | .cmp a b => namesRegister a && namesRegister b
  | .jmp a => namesRegister a
  | .jeq a => namesRegister a
  | .jne a => namesRegister a
  | .push a => namesRegister a
  | .pop a => namesRegister a
  | .call a => namesRegister a
  | .ret => true

end Sys2Proof
end

