-- ==== Sys2Proof/Decode.lean ====
section
/-! DEFINITION. The opcode map, the decoder and the encoder (30_encoding.md R70 to R82). -/

namespace Sys2Proof

/-- The opcode byte of a mnemonic: the map `OPC` of R78. The values are the spec's decision D1, from general
knowledge (PRESUMED, log entry 1). -/
def opcode : Mnemonic → Byte
  | .ldi => 0b10000010
  | .prn => 0b01000111
  | .hlt => 0b00000001
  | .add => 0b10100000
  | .sub => 0b10100001
  | .mul => 0b10100010
  | .div => 0b10100011
  | .cmp => 0b10100111
  | .jmp => 0b01010100
  | .jeq => 0b01010101
  | .jne => 0b01010110
  | .push => 0b01000101
  | .pop => 0b01000110
  | .call => 0b01010000
  | .ret => 0b00010001

/-- The format of a row of the dispatch table (R71, R78). -/
def format : Mnemonic → Format
  | .ldi => .f2ri
  | .prn => .f1r
  | .hlt => .f0
  | .add => .f2rr
  | .sub => .f2rr
  | .mul => .f2rr
  | .div => .f2rr
  | .cmp => .f2rr
  | .jmp => .f1r
  | .jeq => .f1r
  | .jne => .f1r
  | .push => .f1r
  | .pop => .f1r
  | .call => .f1r
  | .ret => .f0

/-- How many bytes an instruction of a format occupies (R70, R71). -/
def width : Format → Nat
  | .f0 => 1
  | .f1r => 2
  | .f2rr => 3
  | .f2ri => 3

/-- The rows of the dispatch table, in the order of R78. -/
def dispatchTable : List Mnemonic :=
  [.ldi, .prn, .hlt, .add, .sub, .mul, .div, .cmp, .jmp, .jeq, .jne, .push, .pop, .call, .ret]

/-- Why the decoder gives no instruction: the opcode byte is in no row (R77, R79). -/
inductive DecodeError
  | illegalInstruction (ir : Byte)
  deriving DecidableEq, Repr

/-- The row whose opcode equals `ir` in all 8 bits, if there is one (R77). -/
def lookupOpcode (ir : Byte) : Option Mnemonic :=
  dispatchTable.find? fun m => opcode m == ir

/-- The instruction of a row with its candidate operand bytes; a byte that is not part of the instruction is
dropped (R71, R72). -/
def build (a b : Byte) : Mnemonic → Instr
  | .ldi => .ldi a b
  | .prn => .prn a
  | .hlt => .hlt
  | .add => .add a b
  | .sub => .sub a b
  | .mul => .mul a b
  | .div => .div a b
  | .cmp => .cmp a b
  | .jmp => .jmp a
  | .jeq => .jeq a
  | .jne => .jne a
  | .push => .push a
  | .pop => .pop a
  | .call => .call a
  | .ret => .ret

/-- Decoding of the three bytes of one fetch: total, with IllegalInstruction as its explicit default case; the
operand bytes take no part in selecting the row (R77, 40_engine_cycle.md R93). -/
def decode (ir a b : Byte) : Except DecodeError Instr :=
  match lookupOpcode ir with
  | some m => .ok (build a b m)
  | none => .error (.illegalInstruction ir)

/-- The decoder on a list of bytes, first byte first; a byte past the list's end reads as 0. -/
def decodeBytes (bs : List Byte) : Except DecodeError Instr :=
  decode (bs.getD 0 0) (bs.getD 1 0) (bs.getD 2 0)

/-! The encoder. -/

/-- The row an instruction belongs to. -/
def Instr.mnemonic : Instr → Mnemonic
  | .ldi _ _ => .ldi
  | .prn _ => .prn
  | .hlt => .hlt
  | .add _ _ => .add
  | .sub _ _ => .sub
  | .mul _ _ => .mul
  | .div _ _ => .div
  | .cmp _ _ => .cmp
  | .jmp _ => .jmp
  | .jeq _ => .jeq
  | .jne _ => .jne
  | .push _ => .push
  | .pop _ => .pop
  | .call _ => .call
  | .ret => .ret

/-- The operand bytes of an instruction, in address order (R71). -/
def Instr.operands : Instr → List Byte
  | .ldi a imm => [a, imm]
  | .prn a => [a]
  | .hlt => []
  | .add a b => [a, b]
  | .sub a b => [a, b]
  | .mul a b => [a, b]
  | .div a b => [a, b]
  | .cmp a b => [a, b]
  | .jmp a => [a]
  | .jeq a => [a]
  | .jne a => [a]
  | .push a => [a]
  | .pop a => [a]
  | .call a => [a]
  | .ret => []

/-- The bytes of an instruction in address order: the opcode, then its operands (R56, R70). -/
def encode (i : Instr) : List Byte := opcode i.mnemonic :: i.operands

/-! The host's words. -/

/-- The three bytes of an instruction whose `nbits` low bits are `w`, bit 0 being the least significant bit of the
first byte; every bit above them is 0. -/
def wordBytes (nbits w : Nat) : List Byte :=
  [BitVec.ofNat 8 (w % 2 ^ nbits), BitVec.ofNat 8 (w % 2 ^ nbits / 256),
    BitVec.ofNat 8 (w % 2 ^ nbits / 65536)]

/-- The instruction the decoder reads from an opcode-table word. -/
def decodeTableWord (nbits w : Nat) : Option Instr :=
  (decodeBytes (wordBytes nbits w)).toOption

end Sys2Proof
end

