-- ==== Sys2Proof/Config.lean ====
section
/-! DEFINITION. The parameters of 00_scope.md R5 that the state and its reset values rest on.
The spec leaves no result value open, so there is no free value here. -/

namespace Sys2Proof.Config

/-- `MEM_SIZE`: Memory cells, addresses 0..255 (R5, R51). -/
abbrev memSize : Nat := 256

/-- `SP_INDEX`: the register used as the stack pointer (R5, R23). -/
abbrev spIndex : Reg := 7

/-- `SP_RESET` (R5, R37). -/
abbrev spReset : Byte := 0xF4

/-- `PC_RESET` (R5, R37; the spec's decision D3, log entry 3). -/
abbrev pcReset : Pc := 0

/-- `FL_RESET`, the unset state (R5, R37; the spec's decision D11, log entry 3). -/
abbrev flReset : Byte := 0

/-- What a Memory cell holds after reset (R37): the value of every cell the model's list does not name. -/
abbrev memReset : Byte := 0

end Sys2Proof.Config
end

