-- ==== Sys2Proof/Machine/State.lean ====
section
/-! DEFINITION. The state of one engine instance (10_state.md R38), its reset value (R37), and the reasons a
step can stop. -/

namespace Sys2Proof.Machine

/-- The engine state: `RUNNING` or `HALTED` (R30). -/
inductive RunState
  | running | halted
  deriving DecidableEq, Repr

/-- The five fault kinds of the architecture (60_exceptions.md R170). Taking one is a NEXT state (`raise`), not a
`Fault` of the model. -/
inductive FaultKind
  | addressOutOfRange
  | divisionByZero
  | unsupportedOperation
  | illegalInstruction
  | invalidRegister
  deriving DecidableEq, Repr

/-- The error record: a kind and the program counter at the start of the faulting cycle (R32, R177). -/
structure ErrRecord where
  kind : FaultKind
  pc : Pc
  deriving DecidableEq, Repr

/-- Memory as (address, byte) pairs; a cell the list does not name holds `Config.memReset`. -/
abbrev Memory := List Host.Cell

/-- The canonical form: addresses strictly rising and inside 0..255 (R51), and no entry equal to what an unlisted
cell reads as, so that equal memories are equal lists. -/
abbrev Memory.wf (m : Memory) : Prop :=
  m.Pairwise (fun c d => c.1 < d.1) ∧ ∀ c ∈ m, c.1 < Config.memSize ∧ c.2 ≠ Config.memReset

/-- The state tuple of R38. -/
structure State where
  /-- R0..R7; `regs[7]` is the stack pointer (R20, R23). -/
  regs : Vector Byte 8
  /-- The program counter, 0..256 (R24, R26). -/
  pc : Pc
  /-- The flags register, layout 00000LGE (R27). -/
  fl : Byte
  /-- The engine state (R30). -/
  run : RunState
  /-- The error record (R32). -/
  err : Option ErrRecord
  /-- The values handed to the output sink, oldest first (R31). -/
  out : List Byte
  /-- Memory (R33, R51). -/
  mem : Memory
  deriving DecidableEq, Repr

/-- The state right after reset, before the Loader writes (R37, 70_reset_and_hazards.md R200). -/
def State.reset : State where
  regs := #v[0, 0, 0, 0, 0, 0, 0, Config.spReset]
  pc := Config.pcReset
  fl := Config.flReset
  run := .running
  err := none
  out := []
  mem := []

/-- Why the machine stops without a next state. -/
inductive Fault
  /-- `step` was asked of an engine that is `HALTED`, which performs no cycle: the stuck state of R90, R98 and
  93_implementation_defined.md U15. Raised by `step` only. Safe: nothing can be proved of a step that does not exist
  (log entry 13). -/
  | halted
  deriving DecidableEq, Repr

/-- Why an instruction has no meaning. -/
inductive Refusal
  /-- The instruction has no meaning in this model yet. Raised by `exec` only; no arm does. Safe. -/
  | notModelled (mnemonic : String)
  deriving DecidableEq, Repr

/-- What a step or a meaning answers. -/
abbrev Result := Host.Outcome State Fault Refusal

end Sys2Proof.Machine
end

