-- ==== Sys2Proof/Machine/Ops.lean ====
section
/-! DEFINITION. The named operations over registers, program counter, output and Memory (00_scope.md R7, R8), taking
a fault (60_exceptions.md R175), and the stack discipline (44_stack.md R150, R151). There is no return from a fault
to stand beside `raise`: R180. -/

namespace Sys2Proof.Machine

/-! Registers (10_state.md R21 to R23): none is hard-wired. -/

/-- `x[r]` (R22). -/
def readReg (s : State) (r : Reg) : Byte := s.regs[r]

/-- `x[r] <- v` (R22). -/
def writeReg (r : Reg) (v : Byte) (s : State) : State := { s with regs := s.regs.set r v }

/-- `sp`, another spelling of `x[7]` (R7, R23). -/
def sp (s : State) : Byte := readReg s Config.spIndex

/-- `fl <- f` (R28). -/
def writeFlags (f : Byte) (s : State) : State := { s with fl := f }

/-! The program counter (10_state.md R24, R25; 40_engine_cycle.md R96, R100: advance, load, hold). -/

/-- `pc <- pc + width`: the advance step, by the width of the instruction's format (R75, R96). The sum is not
reduced modulo 256: from 253 a three-byte instruction advances to 256. -/
def advance (f : Format) (s : State) : State := { s with pc := s.pc + BitVec.ofNat 9 (width f) }

/-- `pc <- zext_9(t)` (43_branch.md R141). -/
def jump (t : Byte) (s : State) : State := { s with pc := t.setWidth 9 }

/-! Output and the engine state. -/

/-- `Output(v)`: one more value handed to the sink, which always accepts it (R8, R31, R99). -/
def output (v : Byte) (s : State) : State := { s with out := s.out ++ [v] }

/-- `run <- HALTED` (R30). -/
def halt (s : State) : State := { s with run := .halted }

/-! Taking a fault. -/

/-- The state fault entry leaves: halted, with the kind and the program counter recorded, and nothing else changed
(60_exceptions.md R175 to R177). -/
def faulted (k : FaultKind) (s : State) : State := { s with run := .halted, err := some ⟨k, s.pc⟩ }

/-- `raise K`, from the state at the start of the cycle (R8, R175). -/
def raise (k : FaultKind) (s : State) : Result := .next (faulted k s)

/-- Go on with a value, or raise the fault that stands in its place. `s` is the state at the start of the cycle: what
was written since is discarded (R8, R176). -/
def orRaise {α : Type} (r : Except FaultKind α) (s : State) (go : α → Result) : Result :=
  match r with
  | .ok v => go v
  | .error k => raise k s

/-! Memory (20_memory.md R50 to R58). -/

/-- The byte a Memory holds at an address: the entry for it, else the reset value (R37, R51). -/
def memGet : Memory → Nat → Byte
  | [], _ => Config.memReset
  | (k, v) :: m, a => if k = a then v else memGet m a

/-- Memory with one cell changed, in canonical form: the entries below the address, the cell unless it holds the
reset value, the entries above. -/
def memSet (m : Memory) (a : Nat) (v : Byte) : Memory :=
  m.filter (fun c => c.1 < a) ++
    ((if v = Config.memReset then [] else [(a, v)]) ++ m.filter (fun c => a < c.1))

/-- `mem[a]`, the byte at an address. -/
def readByte (s : State) (a : Nat) : Byte := memGet s.mem a

/-- `mem[a] <- v`. -/
def writeByte (a : Nat) (v : Byte) (s : State) : State := { s with mem := memSet s.mem a v }

/-- The range check: an address, computed on unbounded integers, names a cell when it is in 0..255; no negative
address does (R52, R53). -/
def inMemory : Int → Bool
  | .ofNat n => n < Config.memSize
  | .negSucc _ => false

/-- `MemRead(a, 1)` (R8, R52). -/
def memRead (a : Int) (s : State) : Except FaultKind Byte :=
  if inMemory a then .ok (readByte s a.toNat) else .error .addressOutOfRange

/-- `MemWrite(a, 1, v)` (R8, R53). -/
def memWrite (a : Int) (v : Byte) (s : State) : Except FaultKind State :=
  if inMemory a then .ok (writeByte a.toNat v s) else .error .addressOutOfRange

/-! Stack pointer control (44_stack.md R150, R151; 40_engine_cycle.md R100). -/

/-- `x[7] <- x[7] + d` on unbounded integers: a result outside 0..255 names no cell and raises AddressOutOfRange, so
the stack pointer never wraps (R150; for the increment the spec's decision D8, log entry 8). -/
def moveSp (d : Int) (s : State) : Except FaultKind State :=
  let t : Int := (sp s).toNat + d
  if inMemory t then .ok (writeReg Config.spIndex (BitVec.ofInt 8 t) s) else .error .addressOutOfRange

/-- Push: lower the stack pointer, then write the cell it now names. The value is read after the decrement (R150, and
for R7 as the operand the spec's decision D9, log entry 9). -/
def push (value : State → Byte) (s : State) : Except FaultKind State :=
  match moveSp (-1) s with
  | .ok s1 => memWrite (sp s1).toNat (value s1) s1
  | .error k => .error k

/-- Pop: read the cell the stack pointer names, let `deliver` store it, then raise the stack pointer by one; answers
the byte and the state (R151, and for R7 as the destination the spec's decision D9, log entry 9). -/
def pop (deliver : Byte → State → State) (s : State) : Except FaultKind (Byte × State) :=
  match memRead (sp s).toNat s with
  | .ok v =>
    match moveSp 1 (deliver v s) with
    | .ok s1 => .ok (v, s1)
    | .error k => .error k
  | .error k => .error k

end Sys2Proof.Machine
end

