-- ==== Sys2Proof/Machine/Flags.lean ====
section
/-! DEFINITION. The flags register 00000LGE (10_state.md R27; the positions are the spec's decision D2, log entry 2)
and the one flag computation, CMP's (42_alu.md R125). -/

namespace Sys2Proof.Machine

/-- EQUAL: bit 0 alone. -/
def flagE : Byte := 0b00000001

/-- GREATER: bit 1 alone. -/
def flagG : Byte := 0b00000010

/-- LESS: bit 2 alone. -/
def flagL : Byte := 0b00000100

/-- `fl.E = 1`, the only flag a branch reads (R28). -/
def equalSet (fl : Byte) : Bool := fl.getLsbD 0

/-- The flags of comparing two values as unsigned numbers (R125). -/
def compareFlags (va vb : Byte) : Byte :=
  if va = vb then flagE else if va.toNat > vb.toNat then flagG else flagL

/-- The values the flags register can hold: unset, EQUAL, GREATER, LESS (R27, R38). -/
def legalFlags (fl : Byte) : Bool := fl == 0 || fl == flagE || fl == flagG || fl == flagL

end Sys2Proof.Machine
end

