-- ==== Sys2Proof/Machine/Operands.lean ====
section
/-! DEFINITION. The operand forms: register and immediate (30_encoding.md R73, R74), and the register check
(40_engine_cycle.md R94). -/

namespace Sys2Proof.Machine

/-- The register a byte in a register position names: the whole byte is the index, and a value above 7 names none and
raises InvalidRegister (R73; the spec's decision D6, log entry 6). -/
def regOperand (v : Byte) : Except FaultKind Reg :=
  if h : v.toNat < 8 then .ok ⟨v.toNat, h⟩ else .error .invalidRegister

/-- The immediate operand: the byte as it stands (R74). -/
def immOperand (v : Byte) : Byte := v

/-- The register check of formats F1R and F2RI, before any effect (R94). -/
def withReg (a : Byte) (s : State) (go : Reg → Result) : Result :=
  orRaise (regOperand a) s go

/-- The register check of format F2RR: operand a, then operand b (R94, R178). -/
def withRegs (a b : Byte) (s : State) (go : Reg → Reg → Result) : Result :=
  withReg a s fun ra => withReg b s fun rb => go ra rb

end Sys2Proof.Machine
end

