-- ==== Sys2Proof/Machine/Alu.lean ====
section
/-! DEFINITION. The ALU and ADD, SUB, MUL, DIV, CMP (42_alu.md). -/

namespace Sys2Proof.Machine

/-- The operation handed to the ALU: the closed set of five, and `other` for an operation outside it, which the
engine never presents (R120, R127). -/
inductive AluOp
  | add | sub | mul | div | cmp | other
  deriving DecidableEq, Repr

/-- What the ALU hands back: a result byte, a flags value, or a fault (R120). -/
inductive AluResult
  | value (v : Byte)
  | flags (f : Byte)
  | fault (k : FaultKind)
  deriving DecidableEq, Repr

/-- `AluApply(op, va, vb)`: a pure function of two register values. The sums, differences and products wrap modulo
256, the quotient is the floor of the unsigned quotient (R120, R126). -/
def aluApply (op : AluOp) (va vb : Byte) : AluResult :=
  match op with
  | .add => .value (va + vb)
  | .sub => .value (va - vb)
  | .mul => .value (va * vb)
  | .div => if vb = 0 then .fault .divisionByZero else .value (va / vb)
  | .cmp => .flags (compareFlags va vb)
  | .other => .fault .unsupportedOperation

/-- The engine's part of an ALU instruction: check the registers, ask the ALU, write the result to `x[a]` or to `fl`,
advance (R120 to R125). -/
def execAlu (op : AluOp) (a b : Byte) (s : State) : Result :=
  withRegs a b s fun ra rb =>
    match aluApply op (readReg s ra) (readReg s rb) with
    | .value v => .next (advance .f2rr (writeReg ra v s))
    | .flags f => .next (advance .f2rr (writeFlags f s))
    | .fault k => raise k s

/-- ADD (R121). -/
def execAdd (a b : Byte) (s : State) : Result := execAlu .add a b s

/-- SUB (R122). -/
def execSub (a b : Byte) (s : State) : Result := execAlu .sub a b s

/-- MUL (R123). -/
def execMul (a b : Byte) (s : State) : Result := execAlu .mul a b s

/-- DIV (R124): the quotient is stored (90_conflicts.md C7). -/
def execDiv (a b : Byte) (s : State) : Result := execAlu .div a b s

/-- CMP (R125). -/
def execCmp (a b : Byte) (s : State) : Result := execAlu .cmp a b s

end Sys2Proof.Machine
end

