-- ==== Sys2Proof/Machine/Branch.lean ====
section
/-! DEFINITION. The conditional branch unit and JMP, JEQ, JNE (43_branch.md). -/

namespace Sys2Proof.Machine

/-- The question asked of the branch unit (R140). -/
inductive BranchOp
  | jmp | jeq | jne
  deriving DecidableEq, Repr

/-- Whether the jump is taken, from `fl.E` alone (R140). -/
def taken (op : BranchOp) (fl : Byte) : Bool :=
  match op with
  | .jmp => true
  | .jeq => equalSet fl
  | .jne => !equalSet fl

/-- The register check is made whether or not the jump is taken (R94; the spec's decision D22, log entry 6); then the
program counter is loaded from the register or advanced (R140). -/
def execBranch (op : BranchOp) (a : Byte) (s : State) : Result :=
  withReg a s fun ra =>
    if taken op s.fl then .next (jump (readReg s ra) s) else .next (advance .f1r s)

/-- JMP (R141). -/
def execJmp (a : Byte) (s : State) : Result := execBranch .jmp a s

/-- JEQ (R142). -/
def execJeq (a : Byte) (s : State) : Result := execBranch .jeq a s

/-- JNE (R143). -/
def execJne (a : Byte) (s : State) : Result := execBranch .jne a s

end Sys2Proof.Machine
end

