-- ==== Sys2Proof/Machine/LoadPrintHalt.lean ====
section
/-! DEFINITION. LDI, PRN and HLT (41_load_print_halt.md). -/

namespace Sys2Proof.Machine

/-- LDI (R110). -/
def execLdi (a imm : Byte) (s : State) : Result :=
  withReg a s fun ra => .next (advance .f2ri (writeReg ra (immOperand imm) s))

/-- PRN (R111). -/
def execPrn (a : Byte) (s : State) : Result :=
  withReg a s fun ra => .next (advance .f1r (output (readReg s ra) s))

/-- HLT (R112): the program counter stays at the HLT (90_conflicts.md C2). -/
def execHlt (s : State) : Result := .next (halt s)

end Sys2Proof.Machine
end

