-- ==== Sys2Proof/Machine/Stack.lean ====
section
/-! DEFINITION. PUSH and POP (44_stack.md). -/

namespace Sys2Proof.Machine

/-- PUSH (R153). -/
def execPush (a : Byte) (s : State) : Result :=
  withReg a s fun ra =>
    orRaise (push (fun s1 => readReg s1 ra) s) s fun s2 => .next (advance .f1r s2)

/-- POP (R154). -/
def execPop (a : Byte) (s : State) : Result :=
  withReg a s fun ra =>
    orRaise (pop (writeReg ra) s) s fun r => .next (advance .f1r r.2)

end Sys2Proof.Machine
end

