-- ==== Sys2Proof/Machine/Subroutine.lean ====
section
/-! DEFINITION. CALL and RET (45_subroutine.md). -/

namespace Sys2Proof.Machine

/-- The byte CALL pushes, `pc + 2`: the address of the instruction after the CALL. In every cycle `pc <= 253`, so it
fits a cell (R163). -/
def returnAddress (s : State) : Byte := (s.pc + BitVec.ofNat 9 (width .f1r)).setWidth 8

/-- CALL (R160): the target register is read after the decrement. -/
def execCall (a : Byte) (s : State) : Result :=
  withReg a s fun ra =>
    orRaise (push returnAddress s) s fun s2 => .next (jump (readReg s2 ra) s2)

/-- RET (R161). -/
def execRet (s : State) : Result :=
  orRaise (pop (fun _ s1 => s1) s) s fun r => .next (jump r.1 r.2)

end Sys2Proof.Machine
end

