-- ==== Sys2Proof/Machine/Cycle.lean ====
section
/-! DEFINITION. One cycle of a running engine: fetch, decode, execute (40_engine_cycle.md R91 to R98), and the
placing of bytes in Memory by an agent outside the engine (70_reset_and_hazards.md R202). -/

namespace Sys2Proof.Machine

/-- The three bytes one fetch reads; values of this cycle only (R92, 10_state.md R36). -/
structure Fetched where
  ir : Byte
  a : Byte
  b : Byte
  deriving DecidableEq, Repr

/-- Fetch: three range-checked reads in every cycle, whatever the instruction turns out to be (R92; the spec's decision
D5, log entry 5). -/
def fetch (s : State) : Except FaultKind Fetched := do
  let ir ← memRead s.pc.toNat s
  let a ← memRead (s.pc.toNat + 1) s
  let b ← memRead (s.pc.toNat + 2) s
  return ⟨ir, a, b⟩

/-- The fault a decoding error raises (R93). -/
def decodeFault : DecodeError → FaultKind
  | .illegalInstruction _ => .illegalInstruction

/-- One cycle of a running engine: fetch, decode, then the instruction, whose meaning makes the register check first
and the advance last (R91, R98). -/
def cycle (s : State) : Result :=
  orRaise (fetch s) s fun f =>
    match decode f.ir f.a f.b with
    | .ok i => exec i s
    | .error e => raise (decodeFault e) s

/-- Memory with bytes placed from an address upward; a byte whose address is no cell is not placed. -/
def placeBytes (m : Memory) (a : Nat) : List Byte → Memory
  | [] => m
  | v :: bs => placeBytes (if inMemory a then memSet m a v else m) (a + 1) bs

/-- What the Loader does between reset and the first cycle: it writes the image's bytes from address 0 upward, and
Memory only (R202). An image of more than 256 bytes is outside the spec, which says nothing of such a run (R203,
log entry 17). -/
def load (image : List Byte) (s : State) : Option State :=
  if image.length ≤ Config.memSize then some { s with mem := placeBytes s.mem 0 image } else none

end Sys2Proof.Machine
end

