-- ==== Sys2Proof/Machine/Step.lean ====
section
/-! DEFINITION. The step of the machine (40_engine_cycle.md R90, R98). -/

namespace Sys2Proof.Machine

/-- While `run = RUNNING` the engine performs cycles; when `run = HALTED` it has no step (R90, R98). -/
def step (s : State) : Host.Outcome State Fault Refusal :=
  match s.run with
  | .running => cycle s
  | .halted => .fault .halted

/-- `s` with an instruction, given as the bits of its opcode-table word, placed at the program counter, where `step`
fetches next. Nothing but those three cells changes; from a program counter above 253, where nothing can be fetched
(R92), the bytes whose address is no cell are not placed (log entry 18). -/
def State.withFetchWord (s : State) (nbits w : Nat) : State :=
  { s with mem := placeBytes s.mem s.pc.toNat (wordBytes nbits w) }

end Sys2Proof.Machine
end

