-- ==== Sys2Proof/Safety.lean ====
section
/-! DEFINITION. The terms the statements use: the invariant of the machine, the two endings of a run, and sequences
of instructions. -/

namespace Sys2Proof.Machine

/-- What every state between two cycles satisfies (10_state.md R26, R27, R32, R38; 60_exceptions.md R177, R179). -/
structure Inv (s : State) : Prop where
  /-- Memory is in canonical form, inside 0..255. -/
  memory : s.mem.wf
  /-- The program counter is in 0..256 (R26, R38). -/
  pc_range : s.pc.toNat ≤ 256
  /-- The flags register is unset or has exactly one of its three bits set (R27). -/
  flags : legalFlags s.fl = true
  /-- An error record stands only in a halted engine, holds the program counter it stopped at, and is never
  UnsupportedOperation (R32, R177, R179). -/
  error : ∀ e, s.err = some e →
    s.run = .halted ∧ e.pc = s.pc ∧ e.kind ≠ .unsupportedOperation

/-- A run that ended by HLT (R32, 40_engine_cycle.md R97). -/
abbrev endedNormally (s : State) : Prop := s.run = .halted ∧ s.err = none

/-- A run that ended by a fault (R32, R97); no good final state of a program. -/
abbrev endedByFault (s : State) : Prop := s.run = .halted ∧ s.err ≠ none

/-- The faulting cycle's whole effect, for some kind: `run` and `err` change, nothing else (60_exceptions.md R175 to
R177). -/
abbrev tookFault (s t : State) : Prop :=
  ∃ k, t = { s with run := .halted, err := some ⟨k, s.pc⟩ }

/-- The two agree on the engine state and the error record, or the one is the other after taking a fault. -/
abbrev sameControlOrFault (s t : State) : Prop :=
  (t.run = s.run ∧ t.err = s.err) ∨ tookFault s t

/-- The meanings of a list of instructions one after another, each only while the engine runs. -/
def execAll : List Instr → State → Result
  | [], s => .next s
  | i :: is, s =>
    match s.run with
    | .halted => .fault .halted
    | .running =>
      match exec i s with
      | .next t => execAll is t
      | .fault r => .fault r
      | .refused r => .refused r

end Sys2Proof.Machine
end

