-- ==== Sys2Proof/Certificates/Slice0/Obligations.lean ====
section
/-! DEFINITION. The statements for the provers. `a.toNat = ra.val` says that operand byte `a` names register `ra`. A statement
about `exec` at every state also speaks of states no cycle enters an instruction in, above pc 253 or halted: what it says
there is the model's choice of log entry 14. A step enters an instruction at pc 0..253 only (the spec's decision D5, log
entry 5). -/

open Sys2Proof Sys2Proof.Machine

/-! Reset, registers, encoding. -/

/-- Reset leaves every piece of state at the value of the table of 10_state.md R37. The values of pc, fl, err and out are
the spec's own decisions D3, D11, D20, D14 (log entry 3). -/
def Obligations.ResetLeavesTheTabledValues : Prop :=
  (∀ r : Reg, readReg State.reset r = if r = 7 then 0xF4 else 0) ∧
    State.reset.pc = 0 ∧ State.reset.fl = 0 ∧ State.reset.run = .running ∧ State.reset.err = none ∧
    State.reset.out = [] ∧ ∀ n : Nat, readByte State.reset n = 0

/-- A register reads as what was last written to it, and a write changes no other register: none of the eight is
hard-wired (R21, R22). -/
def Obligations.RegisterReadsWhatWasWritten : Prop :=
  ∀ (s : State) (r : Reg) (v : Byte),
    readReg (writeReg r v s) r = v ∧ ∀ q : Reg, q ≠ r → readReg (writeReg r v s) q = readReg s q

/-- R77: decoding returns the row whose opcode equals the opcode byte in all 8 bits, or illegal when no row has it; the
operand bytes take no part in selecting the row. -/
def Obligations.DecodeSelectsTheRowByOpcode : Prop :=
  ∀ ir a b : Byte,
    (∀ m, opcode m = ir → decode ir a b = .ok (build a b m)) ∧
      ((∀ m, opcode m ≠ ir) → decode ir a b = .error (.illegalInstruction ir))

/-- The fifteen opcodes are pairwise different and the other 241 byte values are illegal (R78, R79), for the map of the
spec's decision D1 (log entry 1). -/
def Obligations.FifteenOpcodesAreDistinct : Prop :=
  (∀ m n : Mnemonic, opcode m = opcode n → m = n) ∧
    ((List.range 256).filter fun n => (lookupOpcode (BitVec.ofNat 8 n)).isNone).length = 241

/-- A few words written out from the encodings of R71 and R78 decode to the instructions they stand for (opcode values:
the spec's decision D1, log entry 1). -/
def Obligations.SampleWordsDecode : Prop :=
  decode 0b10000010 0b00000011 0b11001000 = .ok (.ldi 3 200) ∧
    decode 0b10100011 0b00000001 0b00000010 = .ok (.div 1 2) ∧
    decode 0b01010101 0b00000010 0b11111111 = .ok (.jeq 2) ∧
    decode 0b01000101 0b00000111 0b00000000 = .ok (.push 7) ∧
    decode 0b00010001 0b11111111 0b11111111 = .ok .ret ∧
    decode 0b00000000 0b00000000 0b00000000 = .error (.illegalInstruction 0)

/-- Decode and encode agree: decoding an encoded instruction gives it back, whatever bytes follow it, so no bit of an operand
is dropped; and the bytes an instruction is decoded from begin with its encoding, so each word has one meaning. -/
def Obligations.DecodeAndEncodeAgree : Prop :=
  (∀ (i : Instr) (rest : List Byte), decodeBytes (encode i ++ rest) = .ok i) ∧
    (∀ (ir a b : Byte) (i : Instr), decode ir a b = .ok i → ∃ rest, encode i ++ rest = [ir, a, b])

/-! Memory. -/

/-- R52: a read in 0..255 gives the cell, any other fails with AddressOutOfRange; the address is never reduced
modulo 256. -/
def Obligations.MemReadFollowsItsContract : Prop :=
  ∀ (s : State) (a : Int),
    (0 ≤ a → a ≤ 255 → memRead a s = .ok (readByte s a.toNat)) ∧
      (a < 0 ∨ 255 < a → memRead a s = .error .addressOutOfRange)

/-- R53: a write in 0..255 sets the cell and no other, and nothing but Memory; any other fails with AddressOutOfRange and
changes no cell. -/
def Obligations.MemWriteFollowsItsContract : Prop :=
  ∀ (s : State) (a : Int) (v : Byte),
    (0 ≤ a → a ≤ 255 → ∃ t, memWrite a v s = .ok t ∧ readByte t a.toNat = v ∧
      (∀ n : Nat, (n : Int) ≠ a → readByte t n = readByte s n) ∧
      t.regs = s.regs ∧ t.pc = s.pc ∧ t.fl = s.fl ∧ t.run = s.run ∧ t.err = s.err ∧ t.out = s.out) ∧
      (a < 0 ∨ 255 < a → memWrite a v s = .error .addressOutOfRange)

/-- Two memories in canonical form that read the same at every address of 0..255 are the same data (R51; the form is the
model's, log entry 16). -/
def Obligations.EqualReadsMeanEqualMemories : Prop :=
  ∀ m m' : Memory, m.wf → m'.wf → (∀ n < 256, memGet m n = memGet m' n) → m = m'

/-! The cycle. -/

/-- A step of a running engine whose three fetched bytes decode to `i` is `exec i` at that state (R91 to R95): the
step adds nothing around it, the advance being part of each meaning (R96). -/
def Obligations.StepRunsTheDecodedInstruction : Prop :=
  ∀ (s : State) (i : Instr), s.run = .running → s.pc.toNat ≤ 253 →
    decode (readByte s s.pc.toNat) (readByte s (s.pc.toNat + 1)) (readByte s (s.pc.toNat + 2)) = .ok i →
    step s = exec i s

/-- Where the encoding of `i` stands in Memory at the program counter, a step is `exec i`: the bytes after the
instruction's width have no influence (R72), and encoding, Memory, fetch and decoder agree. -/
def Obligations.StepRunsTheInstructionEncodedInMemory : Prop :=
  ∀ (s : State) (i : Instr), s.run = .running → s.pc.toNat ≤ 253 →
    (∀ (k : Nat) (h : k < (encode i).length), readByte s (s.pc.toNat + k) = (encode i)[k]) →
    step s = exec i s

/-- From a program counter above 253 the fetch raises AddressOutOfRange and nothing is decoded (R92, R171 a, R175 to R177;
that the unused candidate reads are checked is the spec's decision D5, log entry 5, and that the fault records pc, halts and
changes nothing else its decisions D7, D12, D20, log entry 7). -/
def Obligations.UnfetchablePcRaisesAddressOutOfRange : Prop :=
  ∀ s : State, s.run = .running → 253 < s.pc.toNat →
    step s = .next { s with run := .halted, err := some ⟨.addressOutOfRange, s.pc⟩ }

/-- A byte that is none of the fifteen opcodes, fetched at pc, raises IllegalInstruction, once: the engine then has no step.
Above 253 the fetch fault comes first (R173, R175 to R178; that and its place before decoding are the spec's decisions
D5 and D13, log entries 5 and 10; the recorded pc, the halted state and all else unchanged its decisions D7, D12, D20, log
entry 7; that a halted engine answers a fault of the model is log entry 13). -/
def Obligations.UnknownOpcodeRaisesIllegalInstructionOnce : Prop :=
  ∀ s : State, s.run = .running → (∀ m, opcode m ≠ readByte s s.pc.toNat) →
    ∃ t, step s = .next t ∧ step t = .fault .halted ∧
      (s.pc.toNat ≤ 253 → t = { s with run := .halted, err := some ⟨.illegalInstruction, s.pc⟩ }) ∧
      (253 < s.pc.toNat → t = { s with run := .halted, err := some ⟨.addressOutOfRange, s.pc⟩ })

/-- A register position holding a byte above 7 raises InvalidRegister before any effect, in every instruction and
whatever the handler would have done: a zero divisor, an untaken jump or a stack pointer at the end of its range changes
nothing (R94, R174 to R178; the spec's decisions D6, D22, log entry 6; its place before the handler's own fault is decision
D13, log entry 10, and the recorded pc, the halted state and all else unchanged decisions D7, D12, D20, log entry 7). -/
def Obligations.BadRegisterByteRaisesInvalidRegister : Prop :=
  ∀ (i : Instr) (s : State), i.wf = false →
    exec i s = .next { s with run := .halted, err := some ⟨.invalidRegister, s.pc⟩ }

/-- Two engine states, initially RUNNING. While running the engine performs cycles, each with a next state; when halted it
performs none (R30, R90, R97; that a cycle which faults has a next state too is log entry 7, and that the model's step of a
halted engine answers the fault `halted` is log entry 13). -/
def Obligations.RunningEngineStepsHaltedEngineDoesNot : Prop :=
  State.reset.run = .running ∧
    (∀ s : State, s.run = .running → ∃ t, step s = .next t) ∧
    (∀ s : State, s.run = .halted → step s = .fault .halted)

/-- From a program counter a fetch succeeds at, the advance is the exact sum and reaches at most 256: it never wraps
(R24, R26, R96; the width of pc is the spec's decision D4, log entry 4). -/
def Obligations.AdvanceNeverWraps : Prop :=
  ∀ (f : Format) (s : State), s.pc.toNat ≤ 253 →
    (advance f s).pc.toNat = s.pc.toNat + width f ∧ s.pc.toNat + width f ≤ 256

/-! Faults. -/

/-- A step that records an error changes nothing but run and err, and records the program counter the cycle began with
(R175 to R177; the spec's decisions D7, D12, D20, log entry 7). -/
def Obligations.FaultsArePrecise : Prop :=
  ∀ s t : State, step s = .next t → t.err ≠ s.err →
    ∃ k, t = { s with run := .halted, err := some ⟨k, s.pc⟩ }

/-- What a handler of a well-formed instruction can raise (R95, R170, R171): DivisionByZero by DIV on a zero divisor,
AddressOutOfRange by PUSH and CALL at a stack pointer of 0 and by POP and RET where the stack pointer would become 256
(the spec's decision D8, log entry 8; for R7 as POP's destination its decision D9, log entry 9); nothing else. The recorded
pc is its decision D12 (log entry 7). -/
def Obligations.HandlersRaiseOnlyTheirFaults : Prop :=
  ∀ (i : Instr) (s t : State), i.wf = true → exec i s = .next t → t.err ≠ s.err →
    (∃ (a b : Byte) (rb : Reg), i = .div a b ∧ b.toNat = rb.val ∧ readReg s rb = 0 ∧
        t.err = some ⟨.divisionByZero, s.pc⟩) ∨
      (∃ a : Byte, (i = .push a ∨ i = .call a) ∧ sp s = 0 ∧ t.err = some ⟨.addressOutOfRange, s.pc⟩) ∨
      (∃ a : Byte, i = .pop a ∧ (if a = 7 then readByte s (sp s).toNat else sp s) = 255 ∧
        t.err = some ⟨.addressOutOfRange, s.pc⟩) ∨
      (i = .ret ∧ sp s = 255 ∧ t.err = some ⟨.addressOutOfRange, s.pc⟩)

/-- R172: DivisionByZero is raised by DIV, and only by DIV, when the value of its second register is 0, and leaves Memory
and register file unchanged. -/
def Obligations.DivisionByZeroIsRaisedByDivAlone : Prop :=
  (∀ (s : State) (a b : Byte) (ra rb : Reg), a.toNat = ra.val → b.toNat = rb.val → readReg s rb = 0 →
      ∃ t p, exec (.div a b) s = .next t ∧ t.err = some ⟨.divisionByZero, p⟩ ∧ t.regs = s.regs ∧
        t.mem = s.mem) ∧
    (∀ (s t : State) (p : Pc), step s = .next t → t.err ≠ s.err → t.err = some ⟨.divisionByZero, p⟩ →
      t.regs = s.regs ∧ t.mem = s.mem ∧ ∃ (a b : Byte) (rb : Reg),
        decode (readByte s s.pc.toNat) (readByte s (s.pc.toNat + 1)) (readByte s (s.pc.toNat + 2)) =
          .ok (.div a b) ∧ b.toNat = rb.val ∧ readReg s rb = 0)

/-- DIV by a register that is 0 changes nothing but run and err: pc keeps the address of the DIV, which is recorded, and the
dividend stays, be it 0 or not (R124, R176, R177; the spec's decisions D7, D12, D20, log entry 7). -/
def Obligations.DivByZeroChangesOnlyRunAndErr : Prop :=
  ∀ (s : State) (a b : Byte) (ra rb : Reg), a.toNat = ra.val → b.toNat = rb.val → readReg s rb = 0 →
    exec (.div a b) s = .next { s with run := .halted, err := some ⟨.divisionByZero, s.pc⟩ }

/-- PUSH and CALL at a stack pointer of 0 raise AddressOutOfRange, and the stack pointer does not wrap (R150, R171 b, R175
to R177; the recorded pc, the halted state and the stack pointer left at 0 are the spec's decisions D12, D20, D7, log
entry 7). -/
def Obligations.PushBelowZeroRaisesAddressOutOfRange : Prop :=
  ∀ (s : State) (a : Byte) (ra : Reg), a.toNat = ra.val → sp s = 0 →
    exec (.push a) s = .next { s with run := .halted, err := some ⟨.addressOutOfRange, s.pc⟩ } ∧
      exec (.call a) s = .next { s with run := .halted, err := some ⟨.addressOutOfRange, s.pc⟩ }

/-- POP and RET raise AddressOutOfRange when the stack pointer would become 256: at 255, and for POP R7 on a popped byte
of 255 (R151, R154, R161, R175 to R177; the spec's decisions D8, D9, log entries 8 and 9; the recorded pc, the halted state and
all else unchanged are its decisions D12, D20, D7, log entry 7). -/
def Obligations.PopAboveTopRaisesAddressOutOfRange : Prop :=
  (∀ (s : State) (a : Byte) (ra : Reg), a.toNat = ra.val → ra ≠ 7 → sp s = 255 →
      exec (.pop a) s = .next { s with run := .halted, err := some ⟨.addressOutOfRange, s.pc⟩ }) ∧
    (∀ s : State, readByte s (sp s).toNat = 255 →
      exec (.pop 7) s = .next { s with run := .halted, err := some ⟨.addressOutOfRange, s.pc⟩ }) ∧
    (∀ s : State, sp s = 255 →
      exec .ret s = .next { s with run := .halted, err := some ⟨.addressOutOfRange, s.pc⟩ })

/-! Results: what each instruction does where it completes. -/

/-- The ALU function, operation by operation, on exact integers (R120, R127). (The flags values 001, 010, 100 are the layout of the
spec's decision D2, log entry 2.) -/
def Obligations.AluApplyFollowsItsTable : Prop :=
  ∀ va vb : Byte,
    aluApply .add va vb = .value (BitVec.ofNat 8 ((va.toNat + vb.toNat) % 256)) ∧
      aluApply .sub va vb = .value (BitVec.ofInt 8 (((va.toNat : Int) - vb.toNat) % 256)) ∧
      aluApply .mul va vb = .value (BitVec.ofNat 8 ((va.toNat * vb.toNat) % 256)) ∧
      (vb.toNat = 0 → aluApply .div va vb = .fault .divisionByZero) ∧
      (vb.toNat ≠ 0 → aluApply .div va vb = .value (BitVec.ofNat 8 (va.toNat / vb.toNat))) ∧
      (va.toNat = vb.toNat → aluApply .cmp va vb = .flags 0b00000001) ∧
      (va.toNat > vb.toNat → aluApply .cmp va vb = .flags 0b00000010) ∧
      (va.toNat < vb.toNat → aluApply .cmp va vb = .flags 0b00000100) ∧
      aluApply .other va vb = .fault .unsupportedOperation

/-- LDI stores the immediate as it stands and advances by 3 (R110). -/
def Obligations.LdiLoadsTheImmediate : Prop :=
  ∀ (s : State) (a imm : Byte) (ra : Reg), a.toNat = ra.val →
    exec (.ldi a imm) s = .next { s with regs := s.regs.set ra imm, pc := s.pc + 3 }

/-- PRN hands the register's value to the sink, after all earlier values, and advances by 2 (R111). -/
def Obligations.PrnEmitsTheRegister : Prop :=
  ∀ (s : State) (a : Byte) (ra : Reg), a.toNat = ra.val →
    exec (.prn a) s = .next { s with out := s.out ++ [readReg s ra], pc := s.pc + 2 }

/-- HLT halts the engine and changes nothing else: pc stays at the HLT, err stays as it was (R112). -/
def Obligations.HltHaltsInPlace : Prop :=
  ∀ s : State, exec .hlt s = .next { s with run := .halted }

/-- ADD stores the sum modulo 256 in its first register, writes no flag and advances by 3 (R121). -/
def Obligations.AddStoresTheWrappedSum : Prop :=
  ∀ (s : State) (a b : Byte) (ra rb : Reg), a.toNat = ra.val → b.toNat = rb.val →
    exec (.add a b) s = .next { s with
      regs := s.regs.set ra (BitVec.ofNat 8 (((readReg s ra).toNat + (readReg s rb).toNat) % 256)),
      pc := s.pc + 3 }

/-- SUB stores the difference modulo 256 in its first register, writes no flag and advances by 3 (R122). -/
def Obligations.SubStoresTheWrappedDifference : Prop :=
  ∀ (s : State) (a b : Byte) (ra rb : Reg), a.toNat = ra.val → b.toNat = rb.val →
    exec (.sub a b) s = .next { s with
      regs := s.regs.set ra
        (BitVec.ofInt 8 ((((readReg s ra).toNat : Int) - (readReg s rb).toNat) % 256)),
      pc := s.pc + 3 }

/-- MUL stores the product modulo 256 in its first register, writes no flag and advances by 3 (R123). -/
def Obligations.MulStoresTheWrappedProduct : Prop :=
  ∀ (s : State) (a b : Byte) (ra rb : Reg), a.toNat = ra.val → b.toNat = rb.val →
    exec (.mul a b) s = .next { s with
      regs := s.regs.set ra (BitVec.ofNat 8 (((readReg s ra).toNat * (readReg s rb).toNat) % 256)),
      pc := s.pc + 3 }

/-- DIV by a register that is not 0 stores the floor of the unsigned quotient in its first register, writes no flag and
advances by 3 (R124). -/
def Obligations.DivStoresTheFloorQuotient : Prop :=
  ∀ (s : State) (a b : Byte) (ra rb : Reg), a.toNat = ra.val → b.toNat = rb.val → readReg s rb ≠ 0 →
    exec (.div a b) s = .next { s with
      regs := s.regs.set ra (BitVec.ofNat 8 ((readReg s ra).toNat / (readReg s rb).toNat)),
      pc := s.pc + 3 }

/-- CMP sets exactly one flag by the unsigned order of the two register values, clears the others, writes no register and
advances by 3 (R125; the bit positions are the spec's decision D2, log entry 2). -/
def Obligations.CmpSetsExactlyOneFlag : Prop :=
  ∀ (s : State) (a b : Byte) (ra rb : Reg), a.toNat = ra.val → b.toNat = rb.val →
    ∃ f : Byte, exec (.cmp a b) s = .next { s with fl := f, pc := s.pc + 3 } ∧
      f.getLsbD 0 = decide ((readReg s ra).toNat = (readReg s rb).toNat) ∧
      f.getLsbD 1 = decide ((readReg s ra).toNat > (readReg s rb).toNat) ∧
      f.getLsbD 2 = decide ((readReg s ra).toNat < (readReg s rb).toNat) ∧
      ∀ k, 3 ≤ k → f.getLsbD k = false

/-- JMP loads pc with the register's value and changes nothing else (R141). -/
def Obligations.JmpLoadsPc : Prop :=
  ∀ (s : State) (a : Byte) (ra : Reg), a.toNat = ra.val →
    exec (.jmp a) s = .next { s with pc := BitVec.ofNat 9 (readReg s ra).toNat }

/-- JEQ is taken when bit E is 1, JNE when it is 0, so exactly one of the two for every value of the flags register;
untaken, pc advances by 2; flags, registers, Memory and output are unchanged (R140, R142, R143; that E is bit 0 and the
behaviour on the unset flags are the spec's decisions D2, D11, log entries 2 and 3). -/
def Obligations.JeqAndJneFollowTheEqualFlag : Prop :=
  ∀ (s : State) (a : Byte) (ra : Reg), a.toNat = ra.val →
    (s.fl.getLsbD 0 = true →
      exec (.jeq a) s = .next { s with pc := BitVec.ofNat 9 (readReg s ra).toNat } ∧
        exec (.jne a) s = .next { s with pc := s.pc + 2 }) ∧
    (s.fl.getLsbD 0 = false →
      exec (.jeq a) s = .next { s with pc := s.pc + 2 } ∧
        exec (.jne a) s = .next { s with pc := BitVec.ofNat 9 (readReg s ra).toNat })

/-- PUSH from a stack pointer above 0: the stack pointer ends one lower, the cell it then names holds the register's value
read after the decrement, and nothing else changes but pc, by 2 (R150, R153; PUSH R7: the spec's decision D9, log
entry 9). -/
def Obligations.PushStoresBelowTheStackPointer : Prop :=
  ∀ (s : State) (a : Byte) (ra : Reg), a.toNat = ra.val → sp s ≠ 0 →
    ∃ t, exec (.push a) s = .next t ∧ (sp t).toNat + 1 = (sp s).toNat ∧
      readByte t (sp t).toNat = (if ra = 7 then sp t else readReg s ra) ∧
      (∀ n : Nat, n ≠ (sp t).toNat → readByte t n = readByte s n) ∧
      (∀ r : Reg, r ≠ 7 → readReg t r = readReg s r) ∧
      t.pc = s.pc + 2 ∧ t.fl = s.fl ∧ t.run = s.run ∧ t.err = s.err ∧ t.out = s.out

/-- POP into a register other than R7, from a stack pointer below 255: the register gets the cell at the stack pointer, the
stack pointer ends one higher, the cell keeps its byte, and nothing else changes but pc, by 2 (R151, R154). -/
def Obligations.PopLoadsFromTheStackPointer : Prop :=
  ∀ (s : State) (a : Byte) (ra : Reg), a.toNat = ra.val → ra ≠ 7 → sp s ≠ 255 →
    ∃ t, exec (.pop a) s = .next t ∧ readReg t ra = readByte s (sp s).toNat ∧
      (sp t).toNat = (sp s).toNat + 1 ∧
      (∀ r : Reg, r ≠ ra → r ≠ 7 → readReg t r = readReg s r) ∧ t.mem = s.mem ∧
      t.pc = s.pc + 2 ∧ t.fl = s.fl ∧ t.run = s.run ∧ t.err = s.err ∧ t.out = s.out

/-- POP R7 on a popped byte below 255: the stack pointer ends at the popped byte plus 1 (R154; the spec's decision D9, log
entry 9). -/
def Obligations.PopOfR7EndsAtThePoppedBytePlusOne : Prop :=
  ∀ s : State, readByte s (sp s).toNat ≠ 255 →
    ∃ t, exec (.pop 7) s = .next t ∧ (sp t).toNat = (readByte s (sp s).toNat).toNat + 1 ∧
      (∀ r : Reg, r ≠ 7 → readReg t r = readReg s r) ∧ t.mem = s.mem ∧
      t.pc = s.pc + 2 ∧ t.fl = s.fl ∧ t.run = s.run ∧ t.err = s.err ∧ t.out = s.out

/-- CALL from a stack pointer above 0 and a program counter a fetch succeeds at: pc + 2, which fits a byte, is pushed and
pc gets the register's value read after the decrement (R160, R163; CALL R7: the spec's decision D9, log entry 9). -/
def Obligations.CallPushesTheReturnAddress : Prop :=
  ∀ (s : State) (a : Byte) (ra : Reg), a.toNat = ra.val → sp s ≠ 0 → s.pc.toNat ≤ 253 →
    ∃ t, exec (.call a) s = .next t ∧ (sp t).toNat + 1 = (sp s).toNat ∧
      (readByte t (sp t).toNat).toNat = s.pc.toNat + 2 ∧
      t.pc.toNat = (if ra = 7 then sp t else readReg s ra).toNat ∧
      (∀ n : Nat, n ≠ (sp t).toNat → readByte t n = readByte s n) ∧
      (∀ r : Reg, r ≠ 7 → readReg t r = readReg s r) ∧
      t.fl = s.fl ∧ t.run = s.run ∧ t.err = s.err ∧ t.out = s.out

/-- RET from a stack pointer below 255: pc gets the byte at the stack pointer and the stack pointer ends one higher
(R151, R161). -/
def Obligations.RetPopsIntoPc : Prop :=
  ∀ s : State, sp s ≠ 255 →
    ∃ t, exec .ret s = .next t ∧ t.pc.toNat = (readByte s (sp s).toNat).toNat ∧
      (sp t).toNat = (sp s).toNat + 1 ∧
      (∀ r : Reg, r ≠ 7 → readReg t r = readReg s r) ∧ t.mem = s.mem ∧
      t.fl = s.fl ∧ t.run = s.run ∧ t.err = s.err ∧ t.out = s.out

/-! Frames: what an instruction leaves unchanged whenever it answers a next state, a fault taken included. -/

/-- LDI, ADD, SUB, MUL and DIV change no register but their first operand's, no flag, no output, no byte of Memory, and
neither run nor err unless they take a fault (R28, R110, R121 to R124; what a fault records and leaves unchanged is the
spec's decisions D7, D12, D20, log entry 7, here and in the next three). -/
def Obligations.FrameOfRegisterWritingInstructions : Prop :=
  ∀ (i : Instr) (a b : Byte) (s t : State),
    (i = .ldi a b ∨ i = .add a b ∨ i = .sub a b ∨ i = .mul a b ∨ i = .div a b) →
    exec i s = .next t →
    (∀ r : Reg, a.toNat ≠ r.val → readReg t r = readReg s r) ∧ t.fl = s.fl ∧ t.out = s.out ∧
      (∀ n : Nat, readByte t n = readByte s n) ∧ sameControlOrFault s t

/-- PRN, HLT, CMP, JMP, JEQ and JNE change no register and no byte of Memory; but for CMP no flag; but for PRN no output;
and neither run nor err unless they take a fault, but for HLT's run (R28, R111, R112, R125, R141 to R143). -/
def Obligations.FrameOfInstructionsWithoutRegisterResult : Prop :=
  ∀ (i : Instr) (a b : Byte) (s t : State),
    (i = .prn a ∨ i = .hlt ∨ i = .cmp a b ∨ i = .jmp a ∨ i = .jeq a ∨ i = .jne a) →
    exec i s = .next t →
    (∀ r : Reg, readReg t r = readReg s r) ∧ (∀ n : Nat, readByte t n = readByte s n) ∧
      (i ≠ .cmp a b → t.fl = s.fl) ∧ (i ≠ .prn a → t.out = s.out) ∧
      (i = .hlt → t.err = s.err ∧ t.pc = s.pc) ∧ (i ≠ .hlt → sameControlOrFault s t)

/-- PUSH and CALL store to the cell the lowered stack pointer names and to no other, and to none where it cannot be lowered
or the operand names no register; they change no register but the stack pointer, no flag, no output, and neither run nor err
unless they take a fault (R150, R153, R160). -/
def Obligations.FrameOfStoringInstructions : Prop :=
  ∀ (i : Instr) (a : Byte) (s t : State), (i = .push a ∨ i = .call a) → exec i s = .next t →
    (∀ s1 : State, moveSp (-1) s = .ok s1 →
      ∀ n : Nat, n ≠ (sp s1).toNat → readByte t n = readByte s n) ∧
      ((∀ s1 : State, moveSp (-1) s ≠ .ok s1) → ∀ n : Nat, readByte t n = readByte s n) ∧
      (namesRegister a = false → ∀ n : Nat, readByte t n = readByte s n) ∧
      (∀ r : Reg, r ≠ 7 → readReg t r = readReg s r) ∧ t.fl = s.fl ∧ t.out = s.out ∧
      sameControlOrFault s t

/-- POP and RET change no byte of Memory, no register but the stack pointer and POP's destination, no flag, no output, and
neither run nor err unless they take a fault (R151, R154, R161). -/
def Obligations.FrameOfPoppingInstructions : Prop :=
  ∀ (i : Instr) (a : Byte) (s t : State), (i = .pop a ∨ i = .ret) → exec i s = .next t →
    (∀ n : Nat, readByte t n = readByte s n) ∧
      (∀ r : Reg, r ≠ 7 → (i = .pop a → a.toNat ≠ r.val) → readReg t r = readReg s r) ∧
      t.fl = s.fl ∧ t.out = s.out ∧ sameControlOrFault s t

/-! Whole-machine rules. -/

/-- The flags register is set only by the compare operation and read only by conditional jumps. An instruction other
than CMP leaves it unchanged; a fault leaves it unchanged; after CMP executes exactly one of the three bits is set; an
instruction other than JEQ and JNE does the same whatever the register holds, and those two do the same on two values with
the same bit E (R28; the bit positions are the spec's decision D2, log entry 2, and what a faulting CMP leaves its decisions
D7, D12, D20, log entry 7). -/
def Obligations.FlagsAreWrittenByCmpAndReadByJumps : Prop :=
  (∀ (i : Instr) (s t : State), exec i s = .next t → (∀ a b, i ≠ .cmp a b) → t.fl = s.fl) ∧
    (∀ s t : State, step s = .next t → t.err ≠ s.err → t.fl = s.fl) ∧
    (∀ (a b : Byte) (s t : State), exec (.cmp a b) s = .next t →
      (tookFault s t ∧ t.fl = s.fl) ∨ t.fl = 0b00000001 ∨ t.fl = 0b00000010 ∨ t.fl = 0b00000100) ∧
    (∀ (i : Instr) (s t : State) (f : Byte), exec i s = .next t →
      ((∀ a, i ≠ .jeq a) ∧ (∀ a, i ≠ .jne a) ∨ f.getLsbD 0 = s.fl.getLsbD 0) →
      ∃ f', exec i { s with fl := f } = .next { t with fl := f' })

/-- A step changes a byte of Memory only by executing a PUSH or a CALL, and only the byte just below the stack pointer
(R51, R153, R160; that a fault writes none is the spec's decision D7, log entry 7). -/
def Obligations.MemoryIsWrittenByPushAndCallAlone : Prop :=
  ∀ (s t : State) (n : Nat), step s = .next t → readByte t n ≠ readByte s n →
    n + 1 = (sp s).toNat ∧
      ∃ a : Byte, decode (readByte s s.pc.toNat) (readByte s (s.pc.toNat + 1))
          (readByte s (s.pc.toNat + 2)) = .ok (.push a) ∨
        decode (readByte s s.pc.toNat) (readByte s (s.pc.toNat + 1))
          (readByte s (s.pc.toNat + 2)) = .ok (.call a)

/-- Over any number of steps the output only grows, by at most one value a step (R31, the sequence of values being the
spec's decision D14, log entry 11). -/
def Obligations.OutputOnlyGrows : Prop :=
  ∀ (k : Nat) (s t : State), Host.Core.run Sys2Proof.core k s = .next t →
    ∃ vs : List Byte, t.out = s.out ++ vs ∧ vs.length ≤ k

/-- The invariant of the machine holds after reset (R37, R38; the reset of pc, fl and err is the spec's decisions D3, D11, D20,
log entry 3, the flag layout and the width of pc its decisions D2, D4, log entries 2, 4; the canonical form of Memory is
the model's choice, log entry 16). -/
def Obligations.InvariantHoldsAtReset : Prop := Inv State.reset

/-- Every step keeps the invariant: Memory in canonical form inside 0..255, pc in 0..256, a legal flags value, and an error
record only in a halted engine, at its pc, and never UnsupportedOperation (R26, R27, R32, R38, R177, R179; the layouts, the
bound on pc and the record are the spec's decisions D2, D4, D5, D12, D20, log entries 2, 4, 5, 7, and the Memory form is
the model's choice, log entry 16). -/
def Obligations.EveryStepKeepsTheInvariant : Prop :=
  ∀ s t : State, Inv s → step s = .next t → Inv t

/-- PUSH followed by POP into the same register gives back the register and the stack pointer, for R7 as for every other
register (R153, R154; for R7 by the spec's decision D9, log entry 9). -/
def Obligations.PushThenPopRestoresTheRegister : Prop :=
  ∀ (s : State) (a : Byte) (ra : Reg), a.toNat = ra.val → sp s ≠ 0 →
    ∃ t u, exec (.push a) s = .next t ∧ exec (.pop a) t = .next u ∧
      (∀ r : Reg, readReg u r = readReg s r) ∧ u.pc = s.pc + 4

/-- CALL followed by RET returns to the instruction after the CALL, with every register and the stack pointer as before
(R160, R161). -/
def Obligations.CallThenRetReturnsAfterTheCall : Prop :=
  ∀ (s : State) (a : Byte) (ra : Reg), a.toNat = ra.val → sp s ≠ 0 → s.pc.toNat ≤ 253 →
    ∃ t u, exec (.call a) s = .next t ∧ exec .ret t = .next u ∧
      u.pc.toNat = s.pc.toNat + 2 ∧ ∀ r : Reg, readReg u r = readReg s r

/-- The stack is last in, first out: pushing any list of registers, R7 included, that the stack has room for, and then
popping them in the reverse order, succeeds and leaves every register as it was, every cell from the stack pointer upward
as it was, and flags, run, err and output too (R150 to R154; R7 as the operand is the spec's decision D9, log entry 9). These
are meanings run one after another, not steps: a long list carries pc above 253, where no cycle enters an instruction and
exec is the model's choice (log entry 14). -/
def Obligations.StackIsLastInFirstOut : Prop :=
  ∀ (s : State) (as : List Byte), s.run = .running → (∀ a ∈ as, namesRegister a = true) →
    as.length ≤ (sp s).toNat →
    ∃ t, execAll (as.map Instr.push ++ as.reverse.map Instr.pop) s = .next t ∧
      (∀ r : Reg, readReg t r = readReg s r) ∧
      (∀ n : Nat, (sp s).toNat ≤ n → readByte t n = readByte s n) ∧
      t.fl = s.fl ∧ t.run = s.run ∧ t.err = s.err ∧ t.out = s.out

/-- From a stack pointer of n exactly n pushes succeed, and one more raises AddressOutOfRange: 244 from the reset value
(R150, R152; the state after the fault is the spec's decisions D7, D12, D20, log entry 7). These are meanings run one after
another, not steps: more than 127 of them carry pc above 253, where no cycle enters an instruction and exec is the model's
choice (log entry 14). -/
def Obligations.StackHoldsAsManyEntriesAsItsPointerSays : Prop :=
  ∀ (s : State) (a : Byte), s.run = .running → namesRegister a = true →
    ∃ t, execAll (List.replicate (sp s).toNat (.push a)) s = .next t ∧ t.run = .running ∧ sp t = 0 ∧
      exec (.push a) t = .next { t with run := .halted, err := some ⟨.addressOutOfRange, t.pc⟩ }

/-- A byte `v` pushed into the very next instruction's cell, whatever it is and whichever register it comes from, is what the
next cycle fetches as its opcode (R61, R63): that cycle runs what the decoder gives on it, takes IllegalInstruction where it
gives nothing, and for the opcode of HLT halts in place. (A pushed R7 is the lowered stack pointer by the spec's decision D9,
log entry 9; the opcode map is its decision D1, log entry 1, and what the fault leaves its decisions D7, D12, D20, log
entry 7. The bound on pc is that of the next cycle's fetch, decision D5, log entry 5.) -/
def Obligations.PushedByteIsFetchedByTheNextCycle : Prop :=
  ∀ (s t : State) (a v : Byte) (ra : Reg), s.run = .running → a.toNat = ra.val → s.pc.toNat ≤ 251 →
    (sp s).toNat = s.pc.toNat + 3 → exec (.push a) s = .next t →
    v = (if ra = 7 then sp t else readReg s ra) →
    t.pc.toNat = s.pc.toNat + 2 ∧ readByte t t.pc.toNat = v ∧
      fetch t = .ok ⟨v, readByte t (t.pc.toNat + 1), readByte t (t.pc.toNat + 2)⟩ ∧
      (∀ i, decode v (readByte t (t.pc.toNat + 1)) (readByte t (t.pc.toNat + 2)) = .ok i → step t = exec i t) ∧
      ((∀ m, opcode m ≠ v) →
        step t = .next { t with run := .halted, err := some ⟨.illegalInstruction, t.pc⟩ }) ∧
      (v = opcode .hlt → step t = .next { t with run := .halted })

/-- R202: after loading an image of n bytes, n at most 256, cell k holds byte k for k < n and 0 for n <= k <= 255, and
registers, pc, flags, run, err and output keep their reset values. -/
def Obligations.LoaderPlacesTheImage : Prop :=
  ∀ image : List Byte, image.length ≤ 256 →
    ∃ t, load image State.reset = some t ∧
      (∀ (k : Nat) (h : k < image.length), readByte t k = image[k]) ∧
      (∀ k : Nat, image.length ≤ k → k ≤ 255 → readByte t k = 0) ∧
      t.regs = State.reset.regs ∧ t.pc = State.reset.pc ∧ t.fl = State.reset.fl ∧
      t.run = State.reset.run ∧ t.err = State.reset.err ∧ t.out = State.reset.out

/-- An opcode-table word placed at a program counter a fetch succeeds at is the instruction the very next step runs, at the
state with the word placed; placing it changes only the three cells fetched (R92, R93; the placing is the host's interface,
log entries 17 and 18). -/
def Obligations.PlacedWordIsRunByTheNextStep : Prop :=
  ∀ (s : State) (nbits w : Nat) (i : Instr), s.run = .running → s.pc.toNat ≤ 253 →
    decodeTableWord nbits w = some i →
    step (s.withFetchWord nbits w) = exec i (s.withFetchWord nbits w) ∧
      ∀ n : Nat, n < s.pc.toNat ∨ s.pc.toNat + 2 < n →
        readByte (s.withFetchWord nbits w) n = readByte s n
end

