-- ==== Sys2Proof/Laws/Decode.lean ====
section
/-! SUPPORT. The opcode map and the lookup of an opcode byte. -/

namespace Sys2Proof

theorem mem_dispatchTable (m : Mnemonic) : m ∈ dispatchTable := by cases m <;> decide

/-- Every row is found by its own opcode. -/
@[simp] theorem lookupOpcode_opcode (m : Mnemonic) : lookupOpcode (opcode m) = some m := by
  cases m <;> decide

/-- A row that is found has the opcode looked up. -/
theorem lookupOpcode_some {ir : Byte} {m : Mnemonic} (h : lookupOpcode ir = some m) :
    opcode m = ir := by
  simpa using List.find?_some h

theorem lookupOpcode_none_iff (ir : Byte) : lookupOpcode ir = none ↔ ∀ m, opcode m ≠ ir := by
  simp only [lookupOpcode, List.find?_eq_none, beq_iff_eq]
  exact ⟨fun h m => h m (mem_dispatchTable m), fun h m _ => h m⟩

/-- What the decoder answers on an opcode of the table. -/
theorem decode_opcode (m : Mnemonic) (a b : Byte) : decode (opcode m) a b = .ok (build a b m) := by
  simp [decode]

theorem decode_ok_iff {ir a b : Byte} {i : Instr} :
    decode ir a b = .ok i ↔ ∃ m, lookupOpcode ir = some m ∧ i = build a b m := by
  unfold decode
  cases lookupOpcode ir <;> simp [eq_comm]

@[simp] theorem build_mnemonic (a b : Byte) (m : Mnemonic) : (build a b m).mnemonic = m := by
  cases m <;> rfl

end Sys2Proof
end

