-- ==== Sys2Proof/Laws/State.lean ====
section
/-! SUPPORT. One lemma per field per update of State, and what registers and Memory read as after an update. -/

namespace Sys2Proof.Machine

variable (s : State)

@[simp] theorem writeReg_regs (r : Reg) (v : Byte) : (writeReg r v s).regs = s.regs.set r v := rfl
@[simp] theorem writeReg_pc (r : Reg) (v : Byte) : (writeReg r v s).pc = s.pc := rfl
@[simp] theorem writeReg_fl (r : Reg) (v : Byte) : (writeReg r v s).fl = s.fl := rfl
@[simp] theorem writeReg_run (r : Reg) (v : Byte) : (writeReg r v s).run = s.run := rfl
@[simp] theorem writeReg_err (r : Reg) (v : Byte) : (writeReg r v s).err = s.err := rfl
@[simp] theorem writeReg_out (r : Reg) (v : Byte) : (writeReg r v s).out = s.out := rfl
@[simp] theorem writeReg_mem (r : Reg) (v : Byte) : (writeReg r v s).mem = s.mem := rfl

@[simp] theorem writeFlags_regs (f : Byte) : (writeFlags f s).regs = s.regs := rfl
@[simp] theorem writeFlags_pc (f : Byte) : (writeFlags f s).pc = s.pc := rfl
@[simp] theorem writeFlags_fl (f : Byte) : (writeFlags f s).fl = f := rfl
@[simp] theorem writeFlags_run (f : Byte) : (writeFlags f s).run = s.run := rfl
@[simp] theorem writeFlags_err (f : Byte) : (writeFlags f s).err = s.err := rfl
@[simp] theorem writeFlags_out (f : Byte) : (writeFlags f s).out = s.out := rfl
@[simp] theorem writeFlags_mem (f : Byte) : (writeFlags f s).mem = s.mem := rfl

@[simp] theorem advance_regs (f : Format) : (advance f s).regs = s.regs := rfl
@[simp] theorem advance_pc (f : Format) : (advance f s).pc = s.pc + BitVec.ofNat 9 (width f) := rfl
@[simp] theorem advance_fl (f : Format) : (advance f s).fl = s.fl := rfl
@[simp] theorem advance_run (f : Format) : (advance f s).run = s.run := rfl
@[simp] theorem advance_err (f : Format) : (advance f s).err = s.err := rfl
@[simp] theorem advance_out (f : Format) : (advance f s).out = s.out := rfl
@[simp] theorem advance_mem (f : Format) : (advance f s).mem = s.mem := rfl

@[simp] theorem jump_regs (t : Byte) : (jump t s).regs = s.regs := rfl
@[simp] theorem jump_pc (t : Byte) : (jump t s).pc = t.setWidth 9 := rfl
@[simp] theorem jump_fl (t : Byte) : (jump t s).fl = s.fl := rfl
@[simp] theorem jump_run (t : Byte) : (jump t s).run = s.run := rfl
@[simp] theorem jump_err (t : Byte) : (jump t s).err = s.err := rfl
@[simp] theorem jump_out (t : Byte) : (jump t s).out = s.out := rfl
@[simp] theorem jump_mem (t : Byte) : (jump t s).mem = s.mem := rfl

@[simp] theorem output_regs (v : Byte) : (output v s).regs = s.regs := rfl
@[simp] theorem output_pc (v : Byte) : (output v s).pc = s.pc := rfl
@[simp] theorem output_fl (v : Byte) : (output v s).fl = s.fl := rfl
@[simp] theorem output_run (v : Byte) : (output v s).run = s.run := rfl
@[simp] theorem output_err (v : Byte) : (output v s).err = s.err := rfl
@[simp] theorem output_out (v : Byte) : (output v s).out = s.out ++ [v] := rfl
@[simp] theorem output_mem (v : Byte) : (output v s).mem = s.mem := rfl

@[simp] theorem halt_regs : (halt s).regs = s.regs := rfl
@[simp] theorem halt_pc : (halt s).pc = s.pc := rfl
@[simp] theorem halt_fl : (halt s).fl = s.fl := rfl
@[simp] theorem halt_run : (halt s).run = .halted := rfl
@[simp] theorem halt_err : (halt s).err = s.err := rfl
@[simp] theorem halt_out : (halt s).out = s.out := rfl
@[simp] theorem halt_mem : (halt s).mem = s.mem := rfl

@[simp] theorem faulted_regs (k : FaultKind) : (faulted k s).regs = s.regs := rfl
@[simp] theorem faulted_pc (k : FaultKind) : (faulted k s).pc = s.pc := rfl
@[simp] theorem faulted_fl (k : FaultKind) : (faulted k s).fl = s.fl := rfl
@[simp] theorem faulted_run (k : FaultKind) : (faulted k s).run = .halted := rfl
@[simp] theorem faulted_err (k : FaultKind) : (faulted k s).err = some ⟨k, s.pc⟩ := rfl
@[simp] theorem faulted_out (k : FaultKind) : (faulted k s).out = s.out := rfl
@[simp] theorem faulted_mem (k : FaultKind) : (faulted k s).mem = s.mem := rfl

@[simp] theorem writeByte_regs (a : Nat) (v : Byte) : (writeByte a v s).regs = s.regs := rfl
@[simp] theorem writeByte_pc (a : Nat) (v : Byte) : (writeByte a v s).pc = s.pc := rfl
@[simp] theorem writeByte_fl (a : Nat) (v : Byte) : (writeByte a v s).fl = s.fl := rfl
@[simp] theorem writeByte_run (a : Nat) (v : Byte) : (writeByte a v s).run = s.run := rfl
@[simp] theorem writeByte_err (a : Nat) (v : Byte) : (writeByte a v s).err = s.err := rfl
@[simp] theorem writeByte_out (a : Nat) (v : Byte) : (writeByte a v s).out = s.out := rfl
@[simp] theorem writeByte_mem (a : Nat) (v : Byte) : (writeByte a v s).mem = memSet s.mem a v := rfl

/-! Reading a register after an update. -/

@[simp] theorem readReg_writeReg_same (r : Reg) (v : Byte) : readReg (writeReg r v s) r = v := by
  simp [readReg]

@[simp] theorem readReg_writeReg_other (r q : Reg) (v : Byte) (h : q ≠ r) :
    readReg (writeReg r v s) q = readReg s q := by
  have : r.val ≠ q.val := fun e => h (Fin.ext e.symm)
  simp [readReg, this]

theorem readReg_writeReg (r q : Reg) (v : Byte) :
    readReg (writeReg r v s) q = if q = r then v else readReg s q := by
  split
  · next h => subst h; simp
  · next h => simp [h]

@[simp] theorem readReg_writeFlags (f : Byte) (q : Reg) : readReg (writeFlags f s) q = readReg s q := rfl
@[simp] theorem readReg_advance (f : Format) (q : Reg) : readReg (advance f s) q = readReg s q := rfl
@[simp] theorem readReg_jump (t : Byte) (q : Reg) : readReg (jump t s) q = readReg s q := rfl
@[simp] theorem readReg_output (v : Byte) (q : Reg) : readReg (output v s) q = readReg s q := rfl
@[simp] theorem readReg_halt (q : Reg) : readReg (halt s) q = readReg s q := rfl
@[simp] theorem readReg_faulted (k : FaultKind) (q : Reg) : readReg (faulted k s) q = readReg s q := rfl
@[simp] theorem readReg_writeByte (a : Nat) (v : Byte) (q : Reg) : readReg (writeByte a v s) q = readReg s q := rfl

/-! The stack pointer after an update. -/

@[simp] theorem sp_writeReg_sp (v : Byte) : sp (writeReg Config.spIndex v s) = v := by simp [sp]

@[simp] theorem sp_writeReg_other (r : Reg) (v : Byte) (h : Config.spIndex ≠ r) :
    sp (writeReg r v s) = sp s := by simp [sp, h]

@[simp] theorem sp_writeFlags (f : Byte) : sp (writeFlags f s) = sp s := rfl
@[simp] theorem sp_advance (f : Format) : sp (advance f s) = sp s := rfl
@[simp] theorem sp_jump (t : Byte) : sp (jump t s) = sp s := rfl
@[simp] theorem sp_output (v : Byte) : sp (output v s) = sp s := rfl
@[simp] theorem sp_halt : sp (halt s) = sp s := rfl
@[simp] theorem sp_faulted (k : FaultKind) : sp (faulted k s) = sp s := rfl
@[simp] theorem sp_writeByte (a : Nat) (v : Byte) : sp (writeByte a v s) = sp s := rfl

/-! Reading Memory after an update that does not write it. -/

@[simp] theorem readByte_writeReg (r : Reg) (v : Byte) (n : Nat) : readByte (writeReg r v s) n = readByte s n := rfl
@[simp] theorem readByte_writeFlags (f : Byte) (n : Nat) : readByte (writeFlags f s) n = readByte s n := rfl
@[simp] theorem readByte_advance (f : Format) (n : Nat) : readByte (advance f s) n = readByte s n := rfl
@[simp] theorem readByte_jump (t : Byte) (n : Nat) : readByte (jump t s) n = readByte s n := rfl
@[simp] theorem readByte_output (v : Byte) (n : Nat) : readByte (output v s) n = readByte s n := rfl
@[simp] theorem readByte_halt (n : Nat) : readByte (halt s) n = readByte s n := rfl
@[simp] theorem readByte_faulted (k : FaultKind) (n : Nat) : readByte (faulted k s) n = readByte s n := rfl

/-- Two states with the same seven fields are one state. -/
theorem State.ext_fields {s t : State} (hr : t.regs = s.regs) (hp : t.pc = s.pc) (hf : t.fl = s.fl)
    (hu : t.run = s.run) (he : t.err = s.err) (ho : t.out = s.out) (hm : t.mem = s.mem) : t = s := by
  cases s; cases t; simp_all

end Sys2Proof.Machine
end

