-- ==== Sys2Proof/Laws/Operands.lean ====
section
/-! SUPPORT. What the register check answers, and what `orRaise` does with it. -/

namespace Sys2Proof.Machine

@[simp] theorem orRaise_ok {α : Type} (v : α) (s : State) (go : α → Result) :
    orRaise (.ok v) s go = go v := rfl

@[simp] theorem orRaise_error {α : Type} (k : FaultKind) (s : State) (go : α → Result) :
    orRaise (.error k) s go = .next (faulted k s) := rfl

/-- `orRaise` goes on with a value or takes the fault. -/
theorem orRaise_cases {α : Type} {r : Except FaultKind α} {s t : State} {go : α → Result}
    (h : orRaise r s go = .next t) :
    (∃ v, r = .ok v ∧ go v = .next t) ∨ (∃ k, r = .error k ∧ t = faulted k s) := by
  cases r with
  | ok v => exact .inl ⟨v, rfl, h⟩
  | error k => exact .inr ⟨k, rfl, by simpa using h.symm⟩

theorem regOperand_ok {v : Byte} {r : Reg} (h : v.toNat = r.val) : regOperand v = .ok r := by
  have hv : v.toNat < 8 := h ▸ r.isLt
  simp only [regOperand, hv, dif_pos]
  exact congrArg _ (Fin.ext h)

theorem regOperand_error {v : Byte} (h : namesRegister v = false) :
    regOperand v = .error .invalidRegister := by
  have : ¬ v.toNat < 8 := by simp [namesRegister] at h; omega
  simp [regOperand, this]

theorem namesRegister_iff (v : Byte) : namesRegister v = true ↔ ∃ r : Reg, v.toNat = r.val := by
  simp only [namesRegister, decide_eq_true_eq]
  exact ⟨fun h => ⟨⟨v.toNat, by omega⟩, rfl⟩, fun ⟨r, h⟩ => by have := r.isLt; omega⟩

/-- The register check answers a register or InvalidRegister. -/
theorem regOperand_cases (v : Byte) :
    (∃ r : Reg, v.toNat = r.val ∧ namesRegister v = true ∧ regOperand v = .ok r) ∨
      (namesRegister v = false ∧ regOperand v = .error .invalidRegister) := by
  cases h : namesRegister v with
  | true =>
    obtain ⟨r, hr⟩ := (namesRegister_iff v).1 h
    exact .inl ⟨r, hr, rfl, regOperand_ok hr⟩
  | false => exact .inr ⟨rfl, regOperand_error h⟩

theorem withReg_ok {a : Byte} {ra : Reg} (h : a.toNat = ra.val) (s : State) (go : Reg → Result) :
    withReg a s go = go ra := by rw [withReg, regOperand_ok h, orRaise_ok]

theorem withReg_invalid {a : Byte} (h : namesRegister a = false) (s : State) (go : Reg → Result) :
    withReg a s go = .next (faulted .invalidRegister s) := by
  rw [withReg, regOperand_error h, orRaise_error]

theorem withRegs_ok {a b : Byte} {ra rb : Reg} (ha : a.toNat = ra.val) (hb : b.toNat = rb.val)
    (s : State) (go : Reg → Reg → Result) : withRegs a b s go = go ra rb := by
  rw [withRegs, withReg_ok ha, withReg_ok hb]

theorem withRegs_invalid {a b : Byte} (h : (namesRegister a && namesRegister b) = false)
    (s : State) (go : Reg → Reg → Result) :
    withRegs a b s go = .next (faulted .invalidRegister s) := by
  rcases regOperand_cases a with ⟨ra, hra, ha, -⟩ | ⟨ha, -⟩
  · have hb : namesRegister b = false := by simpa [ha] using h
    rw [withRegs, withReg_ok hra, withReg_invalid hb]
  · rw [withRegs, withReg_invalid ha]

/-- One register check: the handler runs with the register named, or InvalidRegister is taken. -/
theorem withReg_cases {a : Byte} {s t : State} {go : Reg → Result} (h : withReg a s go = .next t) :
    (∃ ra : Reg, a.toNat = ra.val ∧ go ra = .next t) ∨
      (namesRegister a = false ∧ t = faulted .invalidRegister s) := by
  rcases regOperand_cases a with ⟨ra, hra, -, -⟩ | ⟨ha, -⟩
  · exact .inl ⟨ra, hra, by rwa [withReg_ok hra] at h⟩
  · rw [withReg_invalid ha] at h
    exact .inr ⟨ha, by simpa using h.symm⟩

/-- Two register checks. -/
theorem withRegs_cases {a b : Byte} {s t : State} {go : Reg → Reg → Result}
    (h : withRegs a b s go = .next t) :
    (∃ ra rb : Reg, a.toNat = ra.val ∧ b.toNat = rb.val ∧ go ra rb = .next t) ∨
      ((namesRegister a && namesRegister b) = false ∧ t = faulted .invalidRegister s) := by
  cases hw : namesRegister a && namesRegister b with
  | true =>
    obtain ⟨ha, hb⟩ := Bool.and_eq_true_iff.1 hw
    obtain ⟨ra, hra⟩ := (namesRegister_iff a).1 ha
    obtain ⟨rb, hrb⟩ := (namesRegister_iff b).1 hb
    exact .inl ⟨ra, rb, hra, hrb, by rwa [withRegs_ok hra hrb] at h⟩
  | false =>
    rw [withRegs_invalid hw] at h
    exact .inr ⟨rfl, by simpa using h.symm⟩

end Sys2Proof.Machine
end

