-- ==== Sys2Proof/Laws/Memory.lean ====
section
/-! SUPPORT. Memory: reading after writing, the canonical form, and the two access primitives. -/

namespace Sys2Proof.Machine

/-! The range check. -/

theorem inMemory_iff (a : Int) : inMemory a = true ↔ 0 ≤ a ∧ a < 256 := by
  cases a with
  | ofNat n => simp [inMemory]
  | negSucc n => simp [inMemory]

/-- The range check on an address that is a natural number. -/
theorem inMemory_natCast (n : Nat) : inMemory (n : Int) = decide (n < 256) := rfl

theorem memGet_append (m m' : Memory) (a : Nat) :
    memGet (m ++ m') a = if (∃ c ∈ m, c.1 = a) then memGet m a else memGet m' a := by
  induction m with
  | nil => simp
  | cons c m ih =>
    obtain ⟨k, v⟩ := c
    by_cases h : k = a <;> simp [memGet, h, ih]

theorem memGet_absent (m : Memory) (a : Nat) (h : ∀ c ∈ m, c.1 ≠ a) : memGet m a = Config.memReset := by
  induction m with
  | nil => rfl
  | cons c m ih =>
    obtain ⟨k, v⟩ := c
    have hk : k ≠ a := h (k, v) (by simp)
    simpa [memGet, hk] using ih fun c hc => h c (by simp [hc])

theorem memGet_filter (p : Nat → Bool) (m : Memory) (a : Nat) (h : p a = true) :
    memGet (m.filter fun c => p c.1) a = memGet m a := by
  induction m with
  | nil => rfl
  | cons c m ih =>
    obtain ⟨k, v⟩ := c
    by_cases hk : k = a
    · subst hk; simp [memGet, h]
    · by_cases hp : p k = true <;> simp [memGet, hk, hp, ih]

/-- The cell just written reads as the value written. -/
@[simp] theorem memGet_memSet_same (m : Memory) (a : Nat) (v : Byte) : memGet (memSet m a v) a = v := by
  have below : ¬ ∃ c ∈ m.filter (fun c => decide (c.1 < a)), c.1 = a := by
    rintro ⟨c, hc, rfl⟩; simp at hc
  rw [memSet, memGet_append, if_neg below]
  by_cases hv : v = Config.memReset
  · rw [if_pos hv, List.nil_append, memGet_absent, hv]
    intro c hc; simp at hc; omega
  · rw [if_neg hv]; simp [memGet]

/-- Every other cell reads as before. -/
theorem memGet_memSet_other (m : Memory) (a b : Nat) (v : Byte) (h : b ≠ a) :
    memGet (memSet m a v) b = memGet m b := by
  have single : ¬ ∃ c ∈ (if v = Config.memReset then ([] : Memory) else [(a, v)]), c.1 = b := by
    split <;> simp [Ne.symm h]
  rw [memSet, memGet_append]
  split
  · next hc =>
    obtain ⟨c, hc, rfl⟩ := hc
    have : c.1 < a := by simpa using (List.mem_filter.1 hc).2
    exact memGet_filter (fun n => decide (n < a)) m c.1 (by simpa)
  · next hc =>
    rw [memGet_append, if_neg single]
    rcases Nat.lt_or_gt_of_ne h with hb | hb
    · have up : memGet (m.filter fun c => decide (a < c.1)) b = Config.memReset :=
        memGet_absent _ _ fun c hm => by have := (List.mem_filter.1 hm).2; simp at this; omega
      have down : memGet (m.filter fun c => decide (c.1 < a)) b = Config.memReset :=
        memGet_absent _ _ fun c hm e => hc ⟨c, hm, e⟩
      rw [up, ← down]
      exact memGet_filter (fun n => decide (n < a)) m b (by simpa)
    · exact memGet_filter (fun n => decide (a < n)) m b (by simpa)

theorem memGet_memSet (m : Memory) (a b : Nat) (v : Byte) :
    memGet (memSet m a v) b = if b = a then v else memGet m b := by
  split
  · next h => subst h; exact memGet_memSet_same ..
  · next h => exact memGet_memSet_other _ _ _ _ h

@[simp] theorem readByte_writeByte_same (s : State) (a : Nat) (v : Byte) :
    readByte (writeByte a v s) a = v := memGet_memSet_same ..

theorem readByte_writeByte_other (s : State) (a b : Nat) (v : Byte) (h : b ≠ a) :
    readByte (writeByte a v s) b = readByte s b := memGet_memSet_other _ _ _ _ h

theorem readByte_writeByte (s : State) (a b : Nat) (v : Byte) :
    readByte (writeByte a v s) b = if b = a then v else readByte s b := memGet_memSet ..

/-- Writing a cell inside 0..255 keeps the canonical form. -/
theorem memSet_wf (m : Memory) (a : Nat) (v : Byte) (ha : a < Config.memSize) (h : Memory.wf m) :
    Memory.wf (memSet m a v) := by
  obtain ⟨hs, hc⟩ := h
  refine ⟨?_, ?_⟩
  · rw [memSet, List.pairwise_append, List.pairwise_append]
    refine ⟨hs.filter _, ⟨by split <;> simp, hs.filter _, ?_⟩, ?_⟩
    · intro c hc d hd
      have : a < d.1 := by simpa using (List.mem_filter.1 hd).2
      split at hc <;> simp_all
    · intro c hc d hd
      have hca : c.1 < a := by simpa using (List.mem_filter.1 hc).2
      rcases List.mem_append.1 hd with hd | hd
      · split at hd <;> simp_all
      · have : a < d.1 := by simpa using (List.mem_filter.1 hd).2
        omega
  · intro c hm
    rcases List.mem_append.1 hm with hm | hm
    · exact hc c (List.mem_filter.1 hm).1
    · rcases List.mem_append.1 hm with hm | hm
      · split at hm
        · simp at hm
        · next hv => rw [List.mem_singleton.1 hm]; exact ⟨ha, hv⟩
      · exact hc c (List.mem_filter.1 hm).1

theorem reset_memory_wf : Memory.wf State.reset.mem := by decide

@[simp] theorem placeBytes_nil (m : Memory) (a : Nat) : placeBytes m a [] = m := rfl

theorem placeBytes_cons (m : Memory) (a : Nat) (v : Byte) (bs : List Byte) :
    placeBytes m a (v :: bs) = placeBytes (if inMemory a then memSet m a v else m) (a + 1) bs := rfl

/-- Placing bytes keeps the canonical form. -/
theorem placeBytes_wf (bs : List Byte) (m : Memory) (a : Nat) (h : Memory.wf m) :
    Memory.wf (placeBytes m a bs) := by
  induction bs generalizing m a with
  | nil => exact h
  | cons v bs ih =>
    rw [placeBytes_cons]
    refine ih _ _ ?_
    split
    · next hi => exact memSet_wf _ _ _ (by simpa [inMemory_natCast] using hi) h
    · exact h

/-! The two access primitives. -/

@[simp] theorem inMemory_ofNat_byte (v : Byte) : inMemory (v.toNat : Int) = true := by
  have := v.isLt
  rw [inMemory_iff]; omega

theorem memRead_ok (a : Int) (s : State) (h : inMemory a = true) :
    memRead a s = .ok (readByte s a.toNat) := if_pos h

theorem memRead_error (a : Int) (s : State) (h : inMemory a = false) :
    memRead a s = .error .addressOutOfRange := by simp [memRead, h]

theorem memWrite_ok (a : Int) (v : Byte) (s : State) (h : inMemory a = true) :
    memWrite a v s = .ok (writeByte a.toNat v s) := if_pos h

theorem memWrite_error (a : Int) (v : Byte) (s : State) (h : inMemory a = false) :
    memWrite a v s = .error .addressOutOfRange := by simp [memWrite, h]

/-- The cell a register value names always exists. -/
@[simp] theorem memRead_byte (v : Byte) (s : State) : memRead v.toNat s = .ok (readByte s v.toNat) := by
  rw [memRead_ok _ _ (inMemory_ofNat_byte v)]; rfl

@[simp] theorem memWrite_byte (v x : Byte) (s : State) :
    memWrite v.toNat x s = .ok (writeByte v.toNat x s) := by
  rw [memWrite_ok _ _ _ (inMemory_ofNat_byte v)]; rfl

/-- What reads back after bytes are placed: each placed byte at its address, every other cell as before. -/
theorem memGet_placeBytes (bs : List Byte) (m : Memory) (a n : Nat) (hn : n < 256) :
    memGet (placeBytes m a bs) n =
      if h : a ≤ n ∧ n - a < bs.length then bs[n - a]'h.2 else memGet m n := by
  induction bs generalizing m a with
  | nil => simp
  | cons v bs ih =>
    rw [placeBytes_cons, ih]
    have inside : inMemory (a : Int) = true ↔ a < 256 := by rw [inMemory_iff]; omega
    by_cases h : a + 1 ≤ n ∧ n - (a + 1) < bs.length
    · have h' : a ≤ n ∧ n - a < (v :: bs).length := by simp; omega
      have e : n - a = (n - (a + 1)) + 1 := by omega
      simp [h, h', e]
    · rw [dif_neg h]
      by_cases hna : n = a
      · subst hna
        simp [inside.2 hn]
      · have h' : ¬ (a ≤ n ∧ n - a < (v :: bs).length) := by simp; omega
        rw [dif_neg h']
        split
        · exact memGet_memSet_other _ _ _ _ hna
        · rfl

end Sys2Proof.Machine
end

