-- ==== Sys2Proof/Laws/Stack.lean ====
section
/-! SUPPORT. What the stack operations answer: `moveSp`, `push`, `pop`. -/

namespace Sys2Proof.Machine

/-- Lowering the stack pointer. -/
theorem moveSp_down (s : State) :
    moveSp (-1) s =
      if sp s = 0 then .error .addressOutOfRange else .ok (writeReg Config.spIndex (sp s - 1) s) := by
  have hlt := (sp s).isLt
  by_cases h : sp s = 0
  · rw [if_pos h, moveSp, h]; rfl
  · have h0 : (sp s).toNat ≠ 0 := fun e => h (BitVec.eq_of_toNat_eq e)
    have hin : inMemory (((sp s).toNat : Int) + -1) = true := by rw [inMemory_iff]; omega
    have hv : BitVec.ofInt 8 (((sp s).toNat : Int) + -1) = sp s - 1 := by
      apply BitVec.eq_of_toNat_eq
      rw [BitVec.toNat_ofInt, BitVec.toNat_sub]; simp; omega
    simp only [moveSp, hin, if_pos, hv, if_neg h]

/-- Raising the stack pointer. -/
theorem moveSp_up (s : State) :
    moveSp 1 s =
      if sp s = 255 then .error .addressOutOfRange else .ok (writeReg Config.spIndex (sp s + 1) s) := by
  have hlt := (sp s).isLt
  by_cases h : sp s = 255
  · rw [if_pos h, moveSp, h]; rfl
  · have h0 : (sp s).toNat ≠ 255 := fun e => h (BitVec.eq_of_toNat_eq e)
    have hin : inMemory (((sp s).toNat : Int) + 1) = true := by rw [inMemory_iff]; omega
    have hv : BitVec.ofInt 8 (((sp s).toNat : Int) + 1) = sp s + 1 := by
      apply BitVec.eq_of_toNat_eq
      rw [BitVec.toNat_ofInt, BitVec.toNat_add]; simp; omega
    simp only [moveSp, hin, if_pos, hv, if_neg h]

/-- What a push answers: AddressOutOfRange from a stack pointer of 0, else the state with the stack pointer lowered
and the value, read in that state, in the cell it now names. -/
theorem push_eq (value : State → Byte) (s : State) :
    push value s =
      if sp s = 0 then .error .addressOutOfRange
      else .ok (writeByte (sp s - 1).toNat (value (writeReg Config.spIndex (sp s - 1) s))
        (writeReg Config.spIndex (sp s - 1) s)) := by
  rw [push, moveSp_down]
  by_cases h : sp s = 0
  · simp only [if_pos h]
  · simp only [if_neg h, sp_writeReg_sp, memWrite_byte]

/-- What a pop answers: the byte at the stack pointer, delivered, and then the stack pointer raised, or
AddressOutOfRange when it cannot be raised. -/
theorem pop_eq (deliver : Byte → State → State) (s : State) :
    pop deliver s =
      if sp (deliver (readByte s (sp s).toNat) s) = 255 then .error .addressOutOfRange
      else .ok (readByte s (sp s).toNat,
        writeReg Config.spIndex (sp (deliver (readByte s (sp s).toNat) s) + 1)
          (deliver (readByte s (sp s).toNat) s)) := by
  rw [pop, memRead_byte]
  by_cases h : sp (deliver (readByte s (sp s).toNat) s) = 255
  · simp only [moveSp_up, if_pos h]
  · simp only [moveSp_up, if_neg h]

end Sys2Proof.Machine
end

