-- ==== Sys2Proof/Laws/Exec.lean ====
section
/-! SUPPORT. What each shared operation behind the meanings can do, said once: the ALU instructions, the branches, the
stack instructions, and the fetch. -/

namespace Sys2Proof.Machine

/-! Each arm of `exec`, as the shared operation it is. -/

theorem exec_ldi (a imm : Byte) (s : State) : exec (.ldi a imm) s = execLdi a imm s := rfl
theorem exec_prn (a : Byte) (s : State) : exec (.prn a) s = execPrn a s := rfl
theorem exec_hlt (s : State) : exec .hlt s = .next (halt s) := rfl
theorem exec_add (a b : Byte) (s : State) : exec (.add a b) s = execAlu .add a b s := rfl
theorem exec_sub (a b : Byte) (s : State) : exec (.sub a b) s = execAlu .sub a b s := rfl
theorem exec_mul (a b : Byte) (s : State) : exec (.mul a b) s = execAlu .mul a b s := rfl
theorem exec_div (a b : Byte) (s : State) : exec (.div a b) s = execAlu .div a b s := rfl
theorem exec_cmp (a b : Byte) (s : State) : exec (.cmp a b) s = execAlu .cmp a b s := rfl
theorem exec_jmp (a : Byte) (s : State) : exec (.jmp a) s = execBranch .jmp a s := rfl
theorem exec_jeq (a : Byte) (s : State) : exec (.jeq a) s = execBranch .jeq a s := rfl
theorem exec_jne (a : Byte) (s : State) : exec (.jne a) s = execBranch .jne a s := rfl
theorem exec_push (a : Byte) (s : State) : exec (.push a) s = execPush a s := rfl
theorem exec_pop (a : Byte) (s : State) : exec (.pop a) s = execPop a s := rfl
theorem exec_call (a : Byte) (s : State) : exec (.call a) s = execCall a s := rfl
theorem exec_ret (s : State) : exec .ret s = execRet s := rfl

/-! Meanings by register, once the register check has passed. -/

theorem execLdi_eq {a : Byte} {ra : Reg} (h : a.toNat = ra.val) (imm : Byte) (s : State) :
    execLdi a imm s = .next (advance .f2ri (writeReg ra imm s)) := by rw [execLdi, withReg_ok h]; rfl

theorem execPrn_eq {a : Byte} {ra : Reg} (h : a.toNat = ra.val) (s : State) :
    execPrn a s = .next (advance .f1r (output (readReg s ra) s)) := by rw [execPrn, withReg_ok h]

/-- Everything an LDI can do. -/
theorem execLdi_cases {a imm : Byte} {s t : State} (h : execLdi a imm s = .next t) :
    (∃ ra : Reg, a.toNat = ra.val ∧ t = advance .f2ri (writeReg ra imm s)) ∨
      (namesRegister a = false ∧ t = faulted .invalidRegister s) := by
  rcases withReg_cases h with ⟨ra, ha, hg⟩ | hf
  · exact .inl ⟨ra, ha, (Host.Outcome.next.inj hg).symm⟩
  · exact .inr hf

/-- Everything a PRN can do. -/
theorem execPrn_cases {a : Byte} {s t : State} (h : execPrn a s = .next t) :
    (∃ ra : Reg, a.toNat = ra.val ∧ t = advance .f1r (output (readReg s ra) s)) ∨
      (namesRegister a = false ∧ t = faulted .invalidRegister s) := by
  rcases withReg_cases h with ⟨ra, ha, hg⟩ | hf
  · exact .inl ⟨ra, ha, (Host.Outcome.next.inj hg).symm⟩
  · exact .inr hf

/-- An ALU instruction whose register operands are good: the ALU's answer decides which of the three things happens. -/
theorem execAlu_eq (op : AluOp) {a b : Byte} {ra rb : Reg} (ha : a.toNat = ra.val) (hb : b.toNat = rb.val)
    (s : State) :
    execAlu op a b s =
      match aluApply op (readReg s ra) (readReg s rb) with
      | .value v => .next (advance .f2rr (writeReg ra v s))
      | .flags f => .next (advance .f2rr (writeFlags f s))
      | .fault k => .next (faulted k s) := by
  rw [execAlu, withRegs_ok ha hb]; rfl

/-- Everything an ALU instruction can do. -/
theorem execAlu_cases {op : AluOp} {a b : Byte} {s t : State} (h : execAlu op a b s = .next t) :
    (∃ (ra rb : Reg) (v : Byte), a.toNat = ra.val ∧ b.toNat = rb.val ∧
        aluApply op (readReg s ra) (readReg s rb) = .value v ∧ t = advance .f2rr (writeReg ra v s)) ∨
      (∃ (ra rb : Reg) (f : Byte), a.toNat = ra.val ∧ b.toNat = rb.val ∧
        aluApply op (readReg s ra) (readReg s rb) = .flags f ∧ t = advance .f2rr (writeFlags f s)) ∨
      (∃ (ra rb : Reg) (k : FaultKind), a.toNat = ra.val ∧ b.toNat = rb.val ∧
        aluApply op (readReg s ra) (readReg s rb) = .fault k ∧ t = faulted k s) ∨
      ((namesRegister a && namesRegister b) = false ∧ t = faulted .invalidRegister s) := by
  rcases withRegs_cases h with ⟨ra, rb, ha, hb, hgo⟩ | ⟨hw, rfl⟩
  · cases hr : aluApply op (readReg s ra) (readReg s rb) with
    | value v =>
      simp only [hr, Host.Outcome.next.injEq] at hgo
      exact .inl ⟨ra, rb, v, ha, hb, hr, hgo.symm⟩
    | flags f =>
      simp only [hr, Host.Outcome.next.injEq] at hgo
      exact .inr (.inl ⟨ra, rb, f, ha, hb, hr, hgo.symm⟩)
    | fault k =>
      simp only [hr, raise, Host.Outcome.next.injEq] at hgo
      exact .inr (.inr (.inl ⟨ra, rb, k, ha, hb, hr, hgo.symm⟩))
  · exact .inr (.inr (.inr ⟨hw, rfl⟩))

theorem execBranch_eq (op : BranchOp) {a : Byte} {ra : Reg} (h : a.toNat = ra.val) (s : State) :
    execBranch op a s =
      .next (if taken op s.fl then jump (readReg s ra) s else advance .f1r s) := by
  rw [execBranch, withReg_ok h]; split <;> rfl

/-- Everything a branch can do. -/
theorem execBranch_cases {op : BranchOp} {a : Byte} {s t : State} (h : execBranch op a s = .next t) :
    (∃ ra : Reg, a.toNat = ra.val ∧ taken op s.fl = true ∧ t = jump (readReg s ra) s) ∨
      (∃ ra : Reg, a.toNat = ra.val ∧ taken op s.fl = false ∧ t = advance .f1r s) ∨
      (namesRegister a = false ∧ t = faulted .invalidRegister s) := by
  rcases regOperand_cases a with ⟨ra, hra, -, -⟩ | ⟨ha, -⟩
  · rw [execBranch_eq op hra, Host.Outcome.next.injEq] at h
    cases ht : taken op s.fl with
    | true => exact .inl ⟨ra, hra, rfl, by simpa [ht] using h.symm⟩
    | false => exact .inr (.inl ⟨ra, hra, rfl, by simpa [ht] using h.symm⟩)
  · rw [execBranch, withReg_invalid ha, Host.Outcome.next.injEq] at h
    exact .inr (.inr ⟨ha, h.symm⟩)

theorem execPush_eq {a : Byte} {ra : Reg} (h : a.toNat = ra.val) (s : State) :
    execPush a s =
      .next (if sp s = 0 then faulted .addressOutOfRange s
        else advance .f1r (writeByte (sp s - 1).toNat (readReg (writeReg Config.spIndex (sp s - 1) s) ra)
          (writeReg Config.spIndex (sp s - 1) s))) := by
  rw [execPush, withReg_ok h, push_eq]; split <;> simp

theorem execPop_eq {a : Byte} {ra : Reg} (h : a.toNat = ra.val) (s : State) :
    execPop a s =
      .next (if sp (writeReg ra (readByte s (sp s).toNat) s) = 255 then faulted .addressOutOfRange s
        else advance .f1r (writeReg Config.spIndex (sp (writeReg ra (readByte s (sp s).toNat) s) + 1)
          (writeReg ra (readByte s (sp s).toNat) s))) := by
  rw [execPop, withReg_ok h, pop_eq]; split <;> simp

theorem execCall_eq {a : Byte} {ra : Reg} (h : a.toNat = ra.val) (s : State) :
    execCall a s =
      .next (if sp s = 0 then faulted .addressOutOfRange s
        else jump (readReg (writeReg Config.spIndex (sp s - 1) s) ra)
          (writeByte (sp s - 1).toNat (returnAddress s) (writeReg Config.spIndex (sp s - 1) s))) := by
  rw [execCall, withReg_ok h, push_eq]; split
  · simp
  · simp only [orRaise_ok, readReg_writeByte]; rfl

theorem execRet_eq (s : State) :
    execRet s =
      .next (if sp s = 255 then faulted .addressOutOfRange s
        else jump (readByte s (sp s).toNat) (writeReg Config.spIndex (sp s + 1) s)) := by
  rw [execRet, pop_eq]; split <;> simp

/-- Everything a PUSH can do. -/
theorem execPush_cases {a : Byte} {s t : State} (h : execPush a s = .next t) :
    (∃ ra : Reg, a.toNat = ra.val ∧ sp s ≠ 0 ∧
        t = advance .f1r (writeByte (sp s - 1).toNat (readReg (writeReg Config.spIndex (sp s - 1) s) ra)
          (writeReg Config.spIndex (sp s - 1) s))) ∨
      (∃ ra : Reg, a.toNat = ra.val ∧ sp s = 0 ∧ t = faulted .addressOutOfRange s) ∨
      (namesRegister a = false ∧ t = faulted .invalidRegister s) := by
  rcases regOperand_cases a with ⟨ra, hra, -, -⟩ | ⟨ha, -⟩
  · rw [execPush_eq hra, Host.Outcome.next.injEq] at h
    by_cases h0 : sp s = 0
    · exact .inr (.inl ⟨ra, hra, h0, by rw [← h, if_pos h0]⟩)
    · exact .inl ⟨ra, hra, h0, by rw [← h, if_neg h0]⟩
  · rw [execPush, withReg_invalid ha, Host.Outcome.next.injEq] at h
    exact .inr (.inr ⟨ha, h.symm⟩)

/-- Everything a POP can do. -/
theorem execPop_cases {a : Byte} {s t : State} (h : execPop a s = .next t) :
    (∃ ra : Reg, a.toNat = ra.val ∧ sp (writeReg ra (readByte s (sp s).toNat) s) ≠ 255 ∧
        t = advance .f1r (writeReg Config.spIndex (sp (writeReg ra (readByte s (sp s).toNat) s) + 1)
          (writeReg ra (readByte s (sp s).toNat) s))) ∨
      (∃ ra : Reg, a.toNat = ra.val ∧ sp (writeReg ra (readByte s (sp s).toNat) s) = 255 ∧
        t = faulted .addressOutOfRange s) ∨
      (namesRegister a = false ∧ t = faulted .invalidRegister s) := by
  rcases regOperand_cases a with ⟨ra, hra, -, -⟩ | ⟨ha, -⟩
  · rw [execPop_eq hra, Host.Outcome.next.injEq] at h
    by_cases h0 : sp (writeReg ra (readByte s (sp s).toNat) s) = 255
    · exact .inr (.inl ⟨ra, hra, h0, by rw [← h, if_pos h0]⟩)
    · exact .inl ⟨ra, hra, h0, by rw [← h, if_neg h0]⟩
  · rw [execPop, withReg_invalid ha, Host.Outcome.next.injEq] at h
    exact .inr (.inr ⟨ha, h.symm⟩)

/-- Everything a CALL can do. -/
theorem execCall_cases {a : Byte} {s t : State} (h : execCall a s = .next t) :
    (∃ ra : Reg, a.toNat = ra.val ∧ sp s ≠ 0 ∧
        t = jump (readReg (writeReg Config.spIndex (sp s - 1) s) ra)
          (writeByte (sp s - 1).toNat (returnAddress s) (writeReg Config.spIndex (sp s - 1) s))) ∨
      (∃ ra : Reg, a.toNat = ra.val ∧ sp s = 0 ∧ t = faulted .addressOutOfRange s) ∨
      (namesRegister a = false ∧ t = faulted .invalidRegister s) := by
  rcases regOperand_cases a with ⟨ra, hra, -, -⟩ | ⟨ha, -⟩
  · rw [execCall_eq hra, Host.Outcome.next.injEq] at h
    by_cases h0 : sp s = 0
    · exact .inr (.inl ⟨ra, hra, h0, by rw [← h, if_pos h0]⟩)
    · exact .inl ⟨ra, hra, h0, by rw [← h, if_neg h0]⟩
  · rw [execCall, withReg_invalid ha, Host.Outcome.next.injEq] at h
    exact .inr (.inr ⟨ha, h.symm⟩)

/-- Everything a RET can do. -/
theorem execRet_cases {s t : State} (h : execRet s = .next t) :
    (sp s ≠ 255 ∧ t = jump (readByte s (sp s).toNat) (writeReg Config.spIndex (sp s + 1) s)) ∨
      (sp s = 255 ∧ t = faulted .addressOutOfRange s) := by
  rw [execRet_eq, Host.Outcome.next.injEq] at h
  by_cases h0 : sp s = 255
  · exact .inr ⟨h0, by rw [← h, if_pos h0]⟩
  · exact .inl ⟨h0, by rw [← h, if_neg h0]⟩

/-- A meaning always answers a next state: no instruction faults the model or is refused. -/
theorem exec_next (i : Instr) (s : State) : ∃ t, exec i s = .next t := by
  cases i with
  | hlt => exact ⟨_, rfl⟩
  | ret => exact ⟨_, execRet_eq s⟩
  | ldi a imm =>
    rcases regOperand_cases a with ⟨ra, h, -, -⟩ | ⟨h, -⟩
    · exact ⟨_, execLdi_eq h imm s⟩
    · exact ⟨_, withReg_invalid h s _⟩
  | prn a =>
    rcases regOperand_cases a with ⟨ra, h, -, -⟩ | ⟨h, -⟩
    · exact ⟨_, execPrn_eq h s⟩
    · exact ⟨_, withReg_invalid h s _⟩
  | push a =>
    rcases regOperand_cases a with ⟨ra, h, -, -⟩ | ⟨h, -⟩
    · exact ⟨_, execPush_eq h s⟩
    · exact ⟨_, withReg_invalid h s _⟩
  | pop a =>
    rcases regOperand_cases a with ⟨ra, h, -, -⟩ | ⟨h, -⟩
    · exact ⟨_, execPop_eq h s⟩
    · exact ⟨_, withReg_invalid h s _⟩
  | call a =>
    rcases regOperand_cases a with ⟨ra, h, -, -⟩ | ⟨h, -⟩
    · exact ⟨_, execCall_eq h s⟩
    · exact ⟨_, withReg_invalid h s _⟩
  | jmp a => exact execBranch_next .jmp a s
  | jeq a => exact execBranch_next .jeq a s
  | jne a => exact execBranch_next .jne a s
  | add a b => exact execAlu_next .add a b s
  | sub a b => exact execAlu_next .sub a b s
  | mul a b => exact execAlu_next .mul a b s
  | div a b => exact execAlu_next .div a b s
  | cmp a b => exact execAlu_next .cmp a b s
where
  execBranch_next (op : BranchOp) (a : Byte) (s : State) : ∃ t, execBranch op a s = .next t := by
    rcases regOperand_cases a with ⟨ra, h, -, -⟩ | ⟨h, -⟩
    · exact ⟨_, execBranch_eq op h s⟩
    · exact ⟨_, withReg_invalid h s _⟩
  execAlu_next (op : AluOp) (a b : Byte) (s : State) : ∃ t, execAlu op a b s = .next t := by
    cases h : namesRegister a && namesRegister b with
    | true =>
      obtain ⟨ha, hb⟩ := Bool.and_eq_true_iff.1 h
      obtain ⟨ra, hra⟩ := (namesRegister_iff a).1 ha
      obtain ⟨rb, hrb⟩ := (namesRegister_iff b).1 hb
      rw [execAlu_eq op hra hrb]
      split <;> exact ⟨_, rfl⟩
    | false => exact ⟨_, withRegs_invalid h s _⟩

/-! The fetch and the cycle. -/

/-- From a program counter of at most 253 the fetch reads the three bytes there. -/
theorem fetch_ok (s : State) (h : s.pc.toNat ≤ 253) :
    fetch s = .ok ⟨readByte s s.pc.toNat, readByte s (s.pc.toNat + 1), readByte s (s.pc.toNat + 2)⟩ := by
  have h0 : memRead (s.pc.toNat : Int) s = .ok (readByte s s.pc.toNat) :=
    memRead_ok _ _ (by rw [inMemory_natCast]; simp; omega)
  have h1 : memRead ((s.pc.toNat : Int) + 1) s = .ok (readByte s (s.pc.toNat + 1)) :=
    memRead_ok _ _ (by rw [inMemory_iff]; omega)
  have h2 : memRead ((s.pc.toNat : Int) + 2) s = .ok (readByte s (s.pc.toNat + 2)) :=
    memRead_ok _ _ (by rw [inMemory_iff]; omega)
  simp only [fetch, h0, h1, h2]; rfl

/-- From above 253 one of the three reads is out of range. -/
theorem fetch_error (s : State) (h : 253 < s.pc.toNat) : fetch s = .error .addressOutOfRange := by
  have h2 : memRead ((s.pc.toNat : Int) + 2) s = .error .addressOutOfRange :=
    memRead_error _ _ (by
      rw [Bool.eq_false_iff]; intro hc; rw [inMemory_iff] at hc; omega)
  simp only [fetch, h2]
  by_cases h0 : inMemory (s.pc.toNat : Int) = true
  · by_cases h1 : inMemory ((s.pc.toNat : Int) + 1) = true
    · rw [memRead_ok _ _ h0, memRead_ok _ _ h1]; rfl
    · rw [memRead_ok _ _ h0, memRead_error _ _ (by simpa using h1)]; rfl
  · rw [memRead_error _ _ (by simpa using h0)]; rfl

/-- Everything a step of a running engine can do. -/
theorem cycle_cases {s t : State} (h : cycle s = .next t) :
    (253 < s.pc.toNat ∧ t = faulted .addressOutOfRange s) ∨
      (s.pc.toNat ≤ 253 ∧ lookupOpcode (readByte s s.pc.toNat) = none ∧
        t = faulted .illegalInstruction s) ∨
      (s.pc.toNat ≤ 253 ∧ ∃ m, lookupOpcode (readByte s s.pc.toNat) = some m ∧
        exec (build (readByte s (s.pc.toNat + 1)) (readByte s (s.pc.toNat + 2)) m) s = .next t) := by
  by_cases hp : s.pc.toNat ≤ 253
  · rw [cycle, fetch_ok s hp, orRaise_ok] at h
    simp only [decode] at h
    cases hm : lookupOpcode (readByte s s.pc.toNat) with
    | none =>
      simp only [hm, decodeFault, raise, Host.Outcome.next.injEq] at h
      exact .inr (.inl ⟨hp, rfl, h.symm⟩)
    | some m =>
      simp only [hm] at h
      exact .inr (.inr ⟨hp, m, rfl, h⟩)
  · rw [cycle, fetch_error s (by omega), orRaise_error, Host.Outcome.next.injEq] at h
    exact .inl ⟨by omega, h.symm⟩

end Sys2Proof.Machine
end

