-- ==== Sys2Proof/Tests/Slice0.lean ====
section
/-! SUPPORT. Tests. Expected values are the spec's own: V<n> and S<n> of 95_test_vectors.md, examples of the rules, or words
written out from 30_encoding.md R71 and R78. Witnesses: for each statement with hypotheses, a state and operands that meet them. -/

namespace Sys2Proof.Tests

open Sys2Proof.Machine

/-- A running state with the given program counter, flags and registers R0, R1, R7; the rest as after reset. -/
def small (pc : Pc) (fl x0 x1 x7 : Byte) : State :=
  { State.reset with pc := pc, fl := fl, regs := #v[x0, x1, 0, 0, 0, 0, 0, x7] }

/-- The next state, if there is one. -/
def nextOf : Result → Option State
  | .next t => some t
  | .fault _ => none
  | .refused _ => none

/-- One step with the three bytes of `w` (first byte lowest) at the program counter. -/
def runs (w : Nat) (s : State) : Option State := nextOf (step (s.withFetchWord 24 w))

theorem exists_next {r : Result} (P : State → Bool) (h : (nextOf r).any P = true) :
    ∃ t, r = .next t ∧ P t = true := by
  cases r with
  | next t => exact ⟨t, rfl, by simpa [nextOf] using h⟩
  | fault _ => simp [nextOf] at h
  | refused _ => simp [nextOf] at h

/-! WellFormed: an ill-formed term for each check. -/

theorem test_wf_ldi_refuses_r8 : Instr.wf (.ldi 8 0) = false := by decide
theorem test_wf_prn_refuses_r255 : Instr.wf (.prn 255) = false := by decide
theorem test_wf_add_refuses_a : Instr.wf (.add 8 0) = false := by decide
theorem test_wf_add_refuses_b : Instr.wf (.add 0 9) = false := by decide
theorem test_wf_sub_refuses_a : Instr.wf (.sub 8 7) = false := by decide
theorem test_wf_sub_refuses_b : Instr.wf (.sub 7 8) = false := by decide
theorem test_wf_mul_refuses_a : Instr.wf (.mul 128 0) = false := by decide
theorem test_wf_mul_refuses_b : Instr.wf (.mul 0 128) = false := by decide
theorem test_wf_div_refuses_a : Instr.wf (.div 9 0) = false := by decide
theorem test_wf_div_refuses_b : Instr.wf (.div 0 16) = false := by decide
theorem test_wf_cmp_refuses_a : Instr.wf (.cmp 8 0) = false := by decide
theorem test_wf_cmp_refuses_b : Instr.wf (.cmp 0 8) = false := by decide
theorem test_wf_jmp_refuses : Instr.wf (.jmp 8) = false := by decide
theorem test_wf_jeq_refuses : Instr.wf (.jeq 9) = false := by decide
theorem test_wf_jne_refuses : Instr.wf (.jne 32) = false := by decide
theorem test_wf_push_refuses : Instr.wf (.push 8) = false := by decide
theorem test_wf_pop_refuses : Instr.wf (.pop 64) = false := by decide
theorem test_wf_call_refuses : Instr.wf (.call 8) = false := by decide
/-- The immediate has no illegal value (R74), and index 7 is the last good one (R73). -/
theorem test_wf_ldi_accepts_r7_any_immediate : Instr.wf (.ldi 7 255) = true := by decide

/-! Decode: one word per constructor, written out from R71 and R78. -/

theorem test_decode_ldi : decode 0b10000010 0b00000101 0b11111111 = .ok (.ldi 5 255) := by rfl
theorem test_decode_prn : decode 0b01000111 0b00000100 0b11111111 = .ok (.prn 4) := by rfl
theorem test_decode_hlt : decode 0b00000001 0b11111111 0b11111111 = .ok .hlt := by rfl
theorem test_decode_add : decode 0b10100000 0b00000000 0b00000001 = .ok (.add 0 1) := by rfl
theorem test_decode_sub : decode 0b10100001 0b00000010 0b00000001 = .ok (.sub 2 1) := by rfl
theorem test_decode_mul : decode 0b10100010 0b00000011 0b00000010 = .ok (.mul 3 2) := by rfl
theorem test_decode_div : decode 0b10100011 0b00000001 0b00000100 = .ok (.div 1 4) := by rfl
theorem test_decode_cmp : decode 0b10100111 0b00000000 0b00000010 = .ok (.cmp 0 2) := by rfl
theorem test_decode_jmp : decode 0b01010100 0b00000011 0b00000000 = .ok (.jmp 3) := by rfl
theorem test_decode_jeq : decode 0b01010101 0b00000010 0b00000000 = .ok (.jeq 2) := by rfl
theorem test_decode_jne : decode 0b01010110 0b00000011 0b00000000 = .ok (.jne 3) := by rfl
theorem test_decode_push : decode 0b01000101 0b00000111 0b00000000 = .ok (.push 7) := by rfl
theorem test_decode_pop : decode 0b01000110 0b00000001 0b00000000 = .ok (.pop 1) := by rfl
theorem test_decode_call : decode 0b01010000 0b00000001 0b00000000 = .ok (.call 1) := by rfl
theorem test_decode_ret : decode 0b00010001 0b11111111 0b11111111 = .ok .ret := by rfl
/-- AND's byte in the instruction set the repository implements is illegal here (R80, V121). -/
theorem test_decode_refuses_and : decode 0xA8 0 1 = .error (.illegalInstruction 0xA8) := by rfl
theorem test_table_word_ldi : decodeTableWord 24 0x080082 = some (.ldi 0 8) := by rfl
/-- A word of fewer bits than the instruction: its operand bytes are 0. -/
theorem test_table_word_short : decodeTableWord 8 0xA0 = some (.add 0 0) := by rfl

/-! One step each, from 95_test_vectors.md. -/

/-- V1. -/
theorem test_ldi : (runs 0x080082 (small 0 0 0 0 244)).map (fun t => (readReg t 0, t.pc)) = some (8, 3) := by
  decide
/-- V5: the program counter goes to 256, past the last cell. -/
theorem test_ldi_at_253 :
    (runs 0x2A0182 (small 253 0 0 0 244)).map (fun t => (readReg t 1, t.pc)) = some (42, 256) := by decide
/-- V7. -/
theorem test_prn_appends :
    (runs 0x000747 { small 0 0 0 0 244 with out := [1] }).map (fun t => (t.out, t.pc)) = some ([1, 244], 2) := by
  decide
/-- V13. -/
theorem test_prn_invalid :
    (runs 0x000847 (small 0 0 0 0 244)).map (fun t => (t.out, t.err)) = some ([], some ⟨.invalidRegister, 0⟩) := by
  decide
/-- V10. -/
theorem test_hlt_at_253 :
    (runs 0x000001 (small 253 0 0 0 244)).map (fun t => (t.run, t.pc, t.err)) = some (.halted, 253, none) := by
  decide
/-- V11: the HLT at 254 is not executed. -/
theorem test_hlt_at_254 :
    (runs 0x000001 (small 254 0 0 0 244)).map (fun t => (t.run, t.pc, t.err)) =
      some (.halted, 254, some ⟨.addressOutOfRange, 254⟩) := by decide
/-- V21. -/
theorem test_add_wraps :
    (runs 0x0100A0 (small 0 4 200 100 244)).map (fun t => (readReg t 0, readReg t 1, t.fl, t.pc)) =
      some (44, 100, 4, 3) := by decide
/-- V48: source and destination the same register. -/
theorem test_add_same_register :
    (runs 0x0101A0 (small 0 0 0 200 244)).map (fun t => readReg t 1) = some 144 := by decide
/-- V27. -/
theorem test_sub_wraps :
    (runs 0x0100A1 (small 0 0 5 10 244)).map (fun t => (readReg t 0, readReg t 1)) = some (251, 10) := by decide
/-- V35. -/
theorem test_mul_keeps_low_byte :
    (runs 0x0100A2 (small 0 0 17 31 244)).map (fun t => (readReg t 0, t.pc)) = some (15, 3) := by decide
/-- V44: unsigned, 128 is not -128. -/
theorem test_div_unsigned :
    (runs 0x0100A3 (small 0 0 128 127 244)).map (fun t => (readReg t 0, t.pc)) = some (1, 3) := by decide
/-- V45. -/
theorem test_div_by_zero :
    (runs 0x0100A3 (small 0 0 7 0 244)).map (fun t => (readReg t 0, t.pc, t.run, t.err)) =
      some (7, 0, .halted, some ⟨.divisionByZero, 0⟩) := by decide
/-- V64: a signed reading would say LESS. -/
theorem test_cmp_unsigned :
    (runs 0x0100A7 (small 0 0 128 127 244)).map (fun t => (t.fl, readReg t 0, t.pc)) = some (0b010, 128, 3) := by
  decide
/-- V68: the old LESS bit is cleared. -/
theorem test_cmp_equal_clears_less :
    (runs 0x0000A7 (small 0 0b100 9 0 244)).map (fun t => t.fl) = some 0b001 := by decide
/-- V72: the jump itself accepts 255. -/
theorem test_jmp_to_255 : (runs 0x000154 (small 4 0 0 255 244)).map (fun t => (t.pc, t.err)) = some (255, none) := by
  decide
/-- V73. -/
theorem test_jeq_taken : (runs 0x000155 (small 9 0b001 0 40 244)).map (fun t => (t.pc, t.fl)) = some (40, 1) := by
  decide
/-- V76: unset, not taken. -/
theorem test_jeq_unset : (runs 0x000155 (small 9 0 0 40 244)).map (fun t => t.pc) = some 11 := by decide
/-- V79. -/
theorem test_jne_not_taken : (runs 0x000156 (small 20 0b001 0 12 244)).map (fun t => t.pc) = some 22 := by decide
/-- V80: unset, taken. -/
theorem test_jne_unset : (runs 0x000156 (small 20 0 0 12 244)).map (fun t => t.pc) = some 12 := by decide
/-- V91: the PUSH opcode itself is overwritten. -/
theorem test_push_to_zero :
    (runs 0x000045 (small 0 0 5 0 1)).map (fun t => (sp t, readByte t 0, t.pc)) = some (0, 5, 2) := by decide
/-- V93: the decremented value is pushed. -/
theorem test_push_r7 :
    (runs 0x000745 (small 0 0 0 0 244)).map (fun t => (sp t, readByte t 0xF3)) = some (243, 0xF3) := by decide
/-- V95. -/
theorem test_pop :
    (runs 0x000146 { small 0 0 0 0 254 with mem := [(0xFE, 9)] }).map
      (fun t => (readReg t 1, sp t, readByte t 0xFE, t.pc)) = some (9, 255, 9, 2) := by decide
/-- V98. -/
theorem test_pop_r7 :
    (runs 0x000746 { small 0 0 0 0 243 with mem := [(0xF3, 0x10)] }).map (fun t => sp t) = some 17 := by decide
/-- V111: the largest return address. -/
theorem test_call_at_253 :
    (runs 0x000150 (small 253 0 0 0 244)).map (fun t => (sp t, readByte t 0xF3, t.pc)) = some (243, 0xFF, 0) := by
  decide
/-- V113: the target is the decremented stack pointer. -/
theorem test_call_r7 :
    (runs 0x000750 (small 0 0 0 0 244)).map (fun t => (readByte t 0xF3, t.pc)) = some (2, 243) := by decide
/-- V114. -/
theorem test_ret :
    (runs 0x000011 { small 20 0 0 0 243 with mem := [(0xF3, 8)] }).map (fun t => (t.pc, sp t)) = some (8, 244) := by
  decide
/-- V115. -/
theorem test_ret_at_255 :
    (runs 0x000011 (small 3 0 0 0 255)).map (fun t => (sp t, t.pc, t.err)) =
      some (255, 3, some ⟨.addressOutOfRange, 3⟩) := by decide
/-- V120. -/
theorem test_empty_image_is_illegal :
    (nextOf (step State.reset)).map (fun t => (t.run, t.err)) = some (.halted, some ⟨.illegalInstruction, 0⟩) := by
  decide
/-- V81: the register check is made although the jump would not be taken. -/
theorem test_invalid_register_when_not_taken :
    (runs 0x000955 (small 9 0b100 0 0 244)).map (fun t => (t.pc, t.err)) =
      some (9, some ⟨.invalidRegister, 9⟩) := by decide
/-- V101: the register check comes before the stack pointer's. -/
theorem test_invalid_register_before_stack :
    (runs 0x000845 (small 3 0 0 0 0)).map (fun t => t.err) = some (some ⟨.invalidRegister, 3⟩) := by decide
/-- Writing the value an unlisted cell reads as removes the entry. -/
theorem test_memory_form_drops_zero : memSet [(1, 5), (2, 6)] 1 0 = [(2, 6)] := by decide
theorem test_memory_form_sorts : memSet [(1, 5), (9, 6)] 4 7 = [(1, 5), (4, 7), (9, 6)] := by decide
/-- Two bytes of an image, first line at address 0 (R83, R202). -/
theorem test_load : (load [0x82, 0] State.reset).map (fun t => t.mem) = some [(0, 0x82)] := by decide

/-! Witnesses of the statements' hypotheses, one per clause, at the ends of ranges where there are ranges. -/

theorem witness_RegisterReadsWhatWasWritten : (6 : Reg) ≠ 7 := by decide
theorem witness_FifteenOpcodesAreDistinct : opcode .hlt = opcode .hlt := rfl
theorem witness_DecodeSelectsTheRowByOpcode :
    opcode .ldi = 0x82 ∧ ∀ m, opcode m ≠ 0x00 := ⟨rfl, fun m => by cases m <;> decide⟩
theorem witness_DecodeAndEncodeAgree : decode 0x82 3 200 = .ok (.ldi 3 200) := rfl
theorem witness_MemReadFollowsItsContract :
    ((0 : Int) ≤ 0 ∧ (0 : Int) ≤ 255) ∧ ((0 : Int) ≤ 255 ∧ (255 : Int) ≤ 255) ∧
      ((-1 : Int) < 0 ∨ (255 : Int) < -1) ∧ ((256 : Int) < 0 ∨ (255 : Int) < 256) := by decide
theorem witness_MemWriteFollowsItsContract :
    ((0 : Int) ≤ 0 ∧ (0 : Int) ≤ 255) ∧ ((0 : Int) ≤ 255 ∧ (255 : Int) ≤ 255) ∧
      ((-1 : Int) < 0 ∨ (255 : Int) < -1) ∧ ((256 : Int) < 0 ∨ (255 : Int) < 256) := by decide
theorem witness_EqualReadsMeanEqualMemories :
    Memory.wf [(0, 1), (255, 2)] ∧ ∀ n < 256, memGet [(0, 1), (255, 2)] n = memGet [(0, 1), (255, 2)] n :=
  ⟨by decide, fun _ _ => rfl⟩

/-- LDI R0, 8 at address 253, the last a fetch succeeds at. -/
def lastFetchable : State := (small 253 0 0 0 244).withFetchWord 24 0x080082

theorem witness_StepRunsTheDecodedInstruction :
    lastFetchable.run = .running ∧ lastFetchable.pc.toNat ≤ 253 ∧
      decode (readByte lastFetchable 253) (readByte lastFetchable 254) (readByte lastFetchable 255) =
        .ok (.ldi 0 8) := ⟨rfl, by decide, by rfl⟩
theorem witness_StepRunsTheInstructionEncodedInMemory :
    lastFetchable.run = .running ∧ lastFetchable.pc.toNat ≤ 253 ∧
      ∀ (k : Nat) (h : k < (encode (.ldi 0 8)).length),
        readByte lastFetchable (lastFetchable.pc.toNat + k) = (encode (.ldi 0 8))[k] := by
  refine ⟨rfl, by decide, fun k h => ?_⟩
  match k, h with
  | 0, _ => show readByte lastFetchable 253 = 0x82; decide
  | 1, _ => show readByte lastFetchable 254 = 0; decide
  | 2, _ => show readByte lastFetchable 255 = 8; decide
theorem witness_UnfetchablePcRaisesAddressOutOfRange :
    ((small 254 0 0 0 244).run = .running ∧ 253 < (small 254 0 0 0 244).pc.toNat) ∧
      ((small 256 0 0 0 244).run = .running ∧ 253 < (small 256 0 0 0 244).pc.toNat) := by decide
theorem witness_UnknownOpcodeRaisesIllegalInstructionOnce :
    (small 253 0 0 0 244).run = .running ∧ (small 254 0 0 0 244).run = .running ∧
      (small 253 0 0 0 244).pc.toNat ≤ 253 ∧ 253 < (small 254 0 0 0 244).pc.toNat ∧
      (∀ m, opcode m ≠ readByte (small 253 0 0 0 244) 253) ∧
      ∀ m, opcode m ≠ readByte (small 254 0 0 0 244) 254 :=
  ⟨rfl, rfl, by decide, by decide, fun m => by cases m <;> decide, fun m => by cases m <;> decide⟩
theorem witness_BadRegisterByteRaisesInvalidRegister :
    Instr.wf (.jeq 8) = false ∧ Instr.wf (.div 0 255) = false := by decide
theorem witness_RunningEngineStepsHaltedEngineDoesNot :
    (small 0 0 0 0 244).run = .running ∧ (halt (small 0 0 0 0 244)).run = .halted := by decide
theorem witness_AdvanceNeverWraps : (small 253 0 0 0 244).pc.toNat ≤ 253 := by decide
theorem witness_FaultsArePrecise : ∃ t, step (small 7 0 0 0 244) = .next t ∧ t.err ≠ (small 7 0 0 0 244).err := by
  obtain ⟨t, h, hp⟩ := exists_next (r := step (small 7 0 0 0 244)) (fun t => t.err.isSome) (by decide)
  exact ⟨t, h, by intro e; rw [e] at hp; cases hp⟩
theorem witness_HandlersRaiseOnlyTheirFaults :
    (∃ t, exec (.div 0 1) (small 0 0 7 0 244) = .next t ∧ (t.err == some ⟨.divisionByZero, 0⟩) = true) ∧
      (∃ t, exec (.push 0) (small 0 0 7 0 0) = .next t ∧ (t.err == some ⟨.addressOutOfRange, 0⟩) = true) ∧
      (∃ t, exec (.call 7) (small 0 0 7 0 0) = .next t ∧ (t.err == some ⟨.addressOutOfRange, 0⟩) = true) ∧
      (∃ t, exec (.pop 0) (small 0 0 7 0 255) = .next t ∧ (t.err == some ⟨.addressOutOfRange, 0⟩) = true) ∧
      (∃ t, exec (.pop 7) { small 0 0 7 0 9 with mem := [(9, 255)] } = .next t ∧
        (t.err == some ⟨.addressOutOfRange, 0⟩) = true) ∧
      (∃ t, exec .ret (small 0 0 7 0 255) = .next t ∧ (t.err == some ⟨.addressOutOfRange, 0⟩) = true) :=
  ⟨exists_next _ (by decide), exists_next _ (by decide), exists_next _ (by decide), exists_next _ (by decide),
    exists_next _ (by decide), exists_next _ (by decide)⟩
theorem witness_DivisionByZeroIsRaisedByDivAlone :
    ((0 : Byte).toNat = (0 : Reg).val ∧ (1 : Byte).toNat = (1 : Reg).val ∧ readReg (small 0 0 7 0 244) 1 = 0) ∧
      ∃ t, step ((small 0 0 7 0 244).withFetchWord 24 0x0100A3) = .next t ∧
        (t.err == some ⟨.divisionByZero, 0⟩) = true :=
  ⟨by decide, exists_next _ (by decide)⟩
theorem witness_DivByZeroChangesOnlyRunAndErr :
    (0 : Byte).toNat = (0 : Reg).val ∧ (1 : Byte).toNat = (1 : Reg).val ∧ readReg (small 0 0 7 0 244) 1 = 0 := by
  decide
theorem witness_PushBelowZeroRaisesAddressOutOfRange :
    (7 : Byte).toNat = (7 : Reg).val ∧ sp (small 0 0 0 0 0) = 0 := by decide
theorem witness_PopAboveTopRaisesAddressOutOfRange :
    ((6 : Byte).toNat = (6 : Reg).val ∧ (6 : Reg) ≠ 7 ∧ sp (small 0 0 0 0 255) = 255) ∧
      readByte { small 0 0 0 0 9 with mem := [(9, 255)] } 9 = 255 := by decide
theorem witness_AluApplyFollowsItsTable :
    (0 : Byte).toNat = 0 ∧ (1 : Byte).toNat ≠ 0 ∧ (255 : Byte).toNat = (255 : Byte).toNat ∧
      (255 : Byte).toNat > (0 : Byte).toNat ∧ (0 : Byte).toNat < (255 : Byte).toNat := by decide
theorem witness_LdiLoadsTheImmediate : (7 : Byte).toNat = (7 : Reg).val := by decide
theorem witness_PrnEmitsTheRegister : (7 : Byte).toNat = (7 : Reg).val := by decide
theorem witness_AddStoresTheWrappedSum :
    (0 : Byte).toNat = (0 : Reg).val ∧ (7 : Byte).toNat = (7 : Reg).val := by decide
theorem witness_SubStoresTheWrappedDifference :
    (7 : Byte).toNat = (7 : Reg).val ∧ (0 : Byte).toNat = (0 : Reg).val := by decide
theorem witness_MulStoresTheWrappedProduct :
    (3 : Byte).toNat = (3 : Reg).val ∧ (3 : Byte).toNat = (3 : Reg).val := by decide
theorem witness_DivStoresTheFloorQuotient :
    (0 : Byte).toNat = (0 : Reg).val ∧ (1 : Byte).toNat = (1 : Reg).val ∧ readReg (small 0 0 7 1 244) 1 ≠ 0 := by
  decide
theorem witness_CmpSetsExactlyOneFlag :
    (0 : Byte).toNat = (0 : Reg).val ∧ (7 : Byte).toNat = (7 : Reg).val := by decide
theorem witness_JmpLoadsPc : (7 : Byte).toNat = (7 : Reg).val := by decide
theorem witness_JeqAndJneFollowTheEqualFlag :
    (7 : Byte).toNat = (7 : Reg).val ∧ (small 0 1 0 0 244).fl.getLsbD 0 = true ∧
      (small 0 0 0 0 244).fl.getLsbD 0 = false := by decide
theorem witness_PushStoresBelowTheStackPointer :
    (7 : Byte).toNat = (7 : Reg).val ∧ sp (small 0 0 0 0 1) ≠ 0 := by decide
theorem witness_PopLoadsFromTheStackPointer :
    (6 : Byte).toNat = (6 : Reg).val ∧ (6 : Reg) ≠ 7 ∧ sp (small 0 0 0 0 254) ≠ 255 := by decide
theorem witness_PopOfR7EndsAtThePoppedBytePlusOne :
    readByte { small 0 0 0 0 255 with mem := [(255, 254)] } 255 ≠ 255 := by decide
theorem witness_CallPushesTheReturnAddress :
    (7 : Byte).toNat = (7 : Reg).val ∧ sp (small 253 0 0 0 1) ≠ 0 ∧ (small 253 0 0 0 1).pc.toNat ≤ 253 := by decide
theorem witness_RetPopsIntoPc : sp (small 0 0 0 0 254) ≠ 255 := by decide
theorem witness_FrameOfRegisterWritingInstructions :
    (∃ t, exec (.ldi 7 9) (small 0 0 0 0 244) = .next t ∧ (t.err == none) = true) ∧
      (∃ t, exec (.add 0 1) (small 0 0 0 0 244) = .next t ∧ (t.err == none) = true) ∧
      (∃ t, exec (.sub 0 1) (small 0 0 0 0 244) = .next t ∧ (t.err == none) = true) ∧
      (∃ t, exec (.mul 0 1) (small 0 0 0 0 244) = .next t ∧ (t.err == none) = true) ∧
      ∃ t, exec (.div 0 1) (small 0 0 0 1 244) = .next t ∧ (t.err == none) = true :=
  ⟨exists_next _ (by decide), exists_next _ (by decide), exists_next _ (by decide), exists_next _ (by decide),
    exists_next _ (by decide)⟩
theorem witness_FrameOfInstructionsWithoutRegisterResult :
    (∃ t, exec (.prn 7) (small 0 0 0 0 244) = .next t ∧ (t.err == none) = true) ∧
      (∃ t, exec .hlt (small 0 0 0 0 244) = .next t ∧ (t.err == none) = true) ∧
      (∃ t, exec (.cmp 0 1) (small 0 0 0 0 244) = .next t ∧ (t.err == none) = true) ∧
      (∃ t, exec (.jmp 0) (small 0 0 0 0 244) = .next t ∧ (t.err == none) = true) ∧
      (∃ t, exec (.jeq 0) (small 0 0 0 0 244) = .next t ∧ (t.err == none) = true) ∧
      ∃ t, exec (.jne 8) (small 0 0 0 0 244) = .next t ∧ (t.err == none) = false :=
  ⟨exists_next _ (by decide), exists_next _ (by decide), exists_next _ (by decide), exists_next _ (by decide),
    exists_next _ (by decide), by
      obtain ⟨t, h, hp⟩ := exists_next (r := exec (.jne 8) (small 0 0 0 0 244)) (fun t => !(t.err == none)) (by decide)
      exact ⟨t, h, by simpa using hp⟩⟩
theorem witness_FrameOfStoringInstructions :
    (∃ t, exec (.push 7) (small 0 0 0 0 244) = .next t ∧ (t.err == none) = true) ∧
      (∃ t, exec (.call 0) (small 0 0 0 0 1) = .next t ∧ (t.err == none) = true) ∧
      (moveSp (-1) (small 0 0 0 0 1)).toOption.isSome = true ∧
      (moveSp (-1) (small 0 0 0 0 0)).toOption.isSome = false ∧ namesRegister 8 = false :=
  ⟨exists_next _ (by decide), exists_next _ (by decide), by decide, by decide, by decide⟩
theorem witness_FrameOfPoppingInstructions :
    (∃ t, exec (.pop 7) (small 0 0 0 0 244) = .next t ∧ (t.err == none) = true) ∧
      ∃ t, exec .ret (small 0 0 0 0 254) = .next t ∧ (t.err == none) = true :=
  ⟨exists_next _ (by decide), exists_next _ (by decide)⟩
theorem witness_FlagsAreWrittenByCmpAndReadByJumps :
    (∃ t, exec (.add 0 1) (small 0 4 0 0 244) = .next t ∧ (t.err == none) = true) ∧
      (∀ a b, Instr.add 0 1 ≠ .cmp a b) ∧ (∀ a, Instr.add 0 1 ≠ .jeq a) ∧ (∀ a, Instr.add 0 1 ≠ .jne a) ∧
      (∃ t, exec (.cmp 0 1) (small 0 4 0 0 244) = .next t ∧ (t.err == none) = true) ∧
      (∃ t, exec (.jeq 0) (small 0 4 0 0 244) = .next t ∧ (t.err == none) = true) ∧
      (0b010 : Byte).getLsbD 0 = (small 0 4 0 0 244).fl.getLsbD 0 :=
  ⟨exists_next _ (by decide), by simp, by simp, by simp, exists_next _ (by decide), exists_next _ (by decide),
    by decide⟩
theorem witness_FlagsAreWrittenByCmpAndReadByJumps_fault :
    ∃ t, step (small 256 4 0 0 244) = .next t ∧ (t.err != (small 256 4 0 0 244).err) = true :=
  exists_next _ (by decide)
theorem witness_MemoryIsWrittenByPushAndCallAlone :
    ∃ t, step ((small 0 0 0 0 244).withFetchWord 24 0x000745) = .next t ∧
      (readByte t 243 != readByte ((small 0 0 0 0 244).withFetchWord 24 0x000745) 243) = true :=
  exists_next _ (by decide)
theorem witness_OutputOnlyGrows :
    ∃ t, Host.Core.run Sys2Proof.core 1 ((small 0 0 0 0 244).withFetchWord 24 0x000747) = .next t ∧
      (t.out == [244]) = true :=
  exists_next (r := Host.Core.run Sys2Proof.core 1 ((small 0 0 0 0 244).withFetchWord 24 0x000747))
    (fun t => t.out == [244]) (by decide)
theorem witness_EveryStepKeepsTheInvariant :
    Inv lastFetchable ∧ ∃ t, step lastFetchable = .next t ∧ (t.pc.toNat == 256) = true :=
  ⟨⟨by decide, by decide, by decide, fun _ h => by cases h⟩, exists_next _ (by decide)⟩
theorem witness_PushThenPopRestoresTheRegister :
    (7 : Byte).toNat = (7 : Reg).val ∧ sp (small 0 0 0 0 1) ≠ 0 := by decide
theorem witness_CallThenRetReturnsAfterTheCall :
    (7 : Byte).toNat = (7 : Reg).val ∧ sp (small 253 0 0 0 1) ≠ 0 ∧ (small 253 0 0 0 1).pc.toNat ≤ 253 := by decide
theorem witness_StackIsLastInFirstOut :
    (small 0 0 3 4 3).run = .running ∧ (∀ a ∈ ([0, 7, 1] : List Byte), namesRegister a = true) ∧
      ([0, 7, 1] : List Byte).length ≤ (sp (small 0 0 3 4 3)).toNat := by decide
theorem witness_StackHoldsAsManyEntriesAsItsPointerSays :
    State.reset.run = .running ∧ namesRegister 7 = true := by decide
/-- PUSH of `a` at 251, with R0 as given, the pushed byte landing at 253. -/
def pushAhead (x0 a : Byte) : State :=
  { small 251 0 x0 0 254 with mem := [(251, 0x45)] ++ (if a = 0 then [] else [(252, a)]) }

theorem witness_PushedByteIsFetchedByTheNextCycle :
    (pushAhead 1 0).run = .running ∧ (0 : Byte).toNat = (0 : Reg).val ∧ (pushAhead 1 0).pc.toNat ≤ 251 ∧
      (sp (pushAhead 1 0)).toNat = (pushAhead 1 0).pc.toNat + 3 ∧ readReg (pushAhead 1 0) 0 = opcode .hlt ∧
      ∃ t, exec (.push 0) (pushAhead 1 0) = .next t ∧ (t.err == none) = true :=
  ⟨rfl, by decide, by decide, by decide, by decide, exists_next _ (by decide)⟩
/-- The illegal clause: 0xFF is no opcode. -/
theorem witness_PushedByteIsFetchedByTheNextCycle_illegal :
    (sp (pushAhead 0xFF 0)).toNat = (pushAhead 0xFF 0).pc.toNat + 3 ∧
      (∀ m, opcode m ≠ readReg (pushAhead 0xFF 0) 0) ∧
      ∃ t, exec (.push 0) (pushAhead 0xFF 0) = .next t ∧ (t.err == none) = true :=
  ⟨by decide, fun m => by cases m <;> decide, exists_next _ (by decide)⟩
/-- The R7 form. -/
theorem witness_PushedByteIsFetchedByTheNextCycle_r7 :
    (7 : Byte).toNat = (7 : Reg).val ∧ (sp (pushAhead 0 7)).toNat = (pushAhead 0 7).pc.toNat + 3 ∧
      ∃ t, exec (.push 7) (pushAhead 0 7) = .next t ∧ (sp t == readByte t 253) = true :=
  ⟨by decide, by decide, exists_next (r := exec (.push 7) (pushAhead 0 7)) (fun t => sp t == readByte t 253) (by decide)⟩
theorem witness_LoaderPlacesTheImage :
    ([] : List Byte).length ≤ 256 ∧ (List.replicate 256 (1 : Byte)).length ≤ 256 := ⟨by decide, by rw [List.length_replicate]⟩
theorem witness_PlacedWordIsRunByTheNextStep :
    (small 253 0 0 0 244).run = .running ∧ (small 253 0 0 0 244).pc.toNat ≤ 253 ∧
      decodeTableWord 24 0x080082 = some (.ldi 0 8) := ⟨rfl, by decide, by rfl⟩

end Sys2Proof.Tests
end

section
/-! Proofs: everything an instruction and a step can do, as one relation; the frames and invariants of the state are read
off it. -/

namespace Sys2Proof

/-- The operand byte naming the register an instruction stores its result in; the stack instructions, which also move the
stack pointer, are not among these (R110, R121 to R124). -/
def Instr.resultOperand : Instr → Option Byte
  | .ldi a _ | .add a _ | .sub a _ | .mul a _ | .div a _ => some a
  | _ => none

/-- JMP, JEQ and JNE (R141 to R143). -/
def Instr.isBranch : Instr → Bool
  | .jmp _ | .jeq _ | .jne _ => true
  | _ => false

end Sys2Proof

namespace Sys2Proof.Machine

/-! What the ALU answers, by the kind of its answer. -/

theorem aluApply_value {op : AluOp} {va vb v : Byte} (h : aluApply op va vb = .value v) : op ≠ .cmp := by
  rintro rfl
  simp [aluApply] at h

theorem aluApply_flags {op : AluOp} {va vb f : Byte} (h : aluApply op va vb = .flags f) :
    op = .cmp ∧ f = compareFlags va vb := by
  cases op with
  | cmp => exact ⟨rfl, by simpa [aluApply, eq_comm] using h⟩
  | div =>
    simp only [aluApply] at h
    split at h <;> cases h
  | _ => simp [aluApply] at h

theorem aluApply_fault {op : AluOp} {va vb : Byte} {k : FaultKind} (h : aluApply op va vb = .fault k) :
    op = .other ∨ (op = .div ∧ k = .divisionByZero) := by
  cases op with
  | other => exact .inl rfl
  | div =>
    simp only [aluApply] at h
    split at h
    · exact .inr ⟨rfl, by simpa using h.symm⟩
    · cases h
  | _ => simp [aluApply] at h

theorem compareFlags_cases (va vb : Byte) :
    compareFlags va vb = flagE ∨ compareFlags va vb = flagG ∨ compareFlags va vb = flagL := by
  unfold compareFlags
  split
  · exact .inl rfl
  · split
    · exact .inr (.inl rfl)
    · exact .inr (.inr rfl)

theorem legalFlags_compareFlags (va vb : Byte) : legalFlags (compareFlags va vb) = true := by
  rcases compareFlags_cases va vb with h | h | h <;> rw [h] <;> decide

/-! The effect of an instruction. -/

/-- `Effect s i t`: the ways instruction `i` can lead from `s` to `t`, by what it writes. -/
inductive Effect (s : State) : Instr → State → Prop
  /-- A fault taken; an instruction never takes UnsupportedOperation (R179). -/
  | fault (i : Instr) {k : FaultKind} (hk : k ≠ .unsupportedOperation) : Effect s i (faulted k s)
  /-- LDI, ADD, SUB, MUL, DIV: a result register. -/
  | result {i : Instr} {a : Byte} {ra : Reg} (v : Byte) (f : Format) (hi : i.resultOperand = some a)
      (ha : a.toNat = ra.val) : Effect s i (advance f (writeReg ra v s))
  /-- CMP: the flags. -/
  | flags (a b : Byte) (va vb : Byte) : Effect s (.cmp a b) (advance .f2rr (writeFlags (compareFlags va vb) s))
  /-- PRN: one value of output. -/
  | print (a : Byte) (v : Byte) : Effect s (.prn a) (advance .f1r (output v s))
  /-- HLT: the engine state. -/
  | halt : Effect s .hlt (halt s)
  /-- A jump taken. -/
  | jump {i : Instr} (v : Byte) (hi : i.isBranch = true) : Effect s i (jump v s)
  /-- A jump not taken. -/
  | skip {i : Instr} (hi : i.isBranch = true) : Effect s i (advance .f1r s)
  /-- PUSH: the stack pointer and the cell it now names. -/
  | push (a : Byte) (v : Byte) (h0 : sp s ≠ 0) : Effect s (.push a)
      (advance .f1r (writeByte (sp s - 1).toNat v (writeReg Config.spIndex (sp s - 1) s)))
  /-- POP: the destination, then the stack pointer. -/
  | pop {a : Byte} {ra : Reg} (v w : Byte) (ha : a.toNat = ra.val) : Effect s (.pop a)
      (advance .f1r (writeReg Config.spIndex w (writeReg ra v s)))
  /-- CALL: as PUSH, and a jump. -/
  | call (a : Byte) (v w : Byte) (h0 : sp s ≠ 0) : Effect s (.call a)
      (Machine.jump w (writeByte (sp s - 1).toNat v (writeReg Config.spIndex (sp s - 1) s)))
  /-- RET: the stack pointer, and a jump. -/
  | ret (v w : Byte) : Effect s .ret (Machine.jump w (writeReg Config.spIndex v s))

theorem execAlu_effect {op : AluOp} {i : Instr} {a b : Byte} {s t : State} (hc : op ≠ .cmp) (ho : op ≠ .other)
    (hi : i.resultOperand = some a) (h : execAlu op a b s = .next t) : Effect s i t := by
  rcases execAlu_cases h with ⟨ra, rb, v, ha, -, -, rfl⟩ | ⟨ra, rb, f, -, -, hf, -⟩ |
    ⟨ra, rb, k, -, -, hk, rfl⟩ | ⟨-, rfl⟩
  · exact .result v _ hi ha
  · exact absurd (aluApply_flags hf).1 hc
  · rcases aluApply_fault hk with rfl | ⟨-, rfl⟩
    · exact absurd rfl ho
    · exact .fault i (by decide)
  · exact .fault i (by decide)

theorem execAlu_cmp_effect {a b : Byte} {s t : State} (h : execAlu .cmp a b s = .next t) : Effect s (.cmp a b) t := by
  rcases execAlu_cases h with ⟨ra, rb, v, -, -, hv, -⟩ | ⟨ra, rb, f, -, -, hf, rfl⟩ |
    ⟨ra, rb, k, -, -, hk, -⟩ | ⟨-, rfl⟩
  · exact absurd rfl (aluApply_value hv)
  · obtain ⟨-, rfl⟩ := aluApply_flags hf
    exact .flags a b _ _
  · rcases aluApply_fault hk with hop | ⟨hop, -⟩ <;> cases hop
  · exact .fault _ (by decide)

theorem execBranch_effect {op : BranchOp} {i : Instr} {a : Byte} {s t : State} (hi : i.isBranch = true)
    (h : execBranch op a s = .next t) : Effect s i t := by
  rcases execBranch_cases h with ⟨ra, -, -, rfl⟩ | ⟨ra, -, -, rfl⟩ | ⟨-, rfl⟩
  · exact .jump _ hi
  · exact .skip hi
  · exact .fault i (by decide)

/-- Everything an instruction can do. -/
theorem exec_effect {i : Instr} {s t : State} (h : exec i s = .next t) : Effect s i t := by
  cases i with
  | ldi a imm =>
    rcases execLdi_cases h with ⟨ra, ha, rfl⟩ | ⟨-, rfl⟩
    · exact .result imm _ rfl ha
    · exact .fault _ (by decide)
  | prn a =>
    rcases execPrn_cases h with ⟨ra, -, rfl⟩ | ⟨-, rfl⟩
    · exact .print a _
    · exact .fault _ (by decide)
  | hlt =>
    obtain rfl := Host.Outcome.next.inj h
    exact .halt
  | add a b => exact execAlu_effect (op := .add) (by decide) (by decide) rfl h
  | sub a b => exact execAlu_effect (op := .sub) (by decide) (by decide) rfl h
  | mul a b => exact execAlu_effect (op := .mul) (by decide) (by decide) rfl h
  | div a b => exact execAlu_effect (op := .div) (by decide) (by decide) rfl h
  | cmp a b => exact execAlu_cmp_effect h
  | jmp a => exact execBranch_effect (op := .jmp) rfl h
  | jeq a => exact execBranch_effect (op := .jeq) rfl h
  | jne a => exact execBranch_effect (op := .jne) rfl h
  | push a =>
    rcases execPush_cases h with ⟨ra, -, h0, rfl⟩ | ⟨-, -, -, rfl⟩ | ⟨-, rfl⟩
    · exact .push a _ h0
    · exact .fault _ (by decide)
    · exact .fault _ (by decide)
  | pop a =>
    rcases execPop_cases h with ⟨ra, ha, -, rfl⟩ | ⟨-, -, -, rfl⟩ | ⟨-, rfl⟩
    · exact .pop _ _ ha
    · exact .fault _ (by decide)
    · exact .fault _ (by decide)
  | call a =>
    rcases execCall_cases h with ⟨ra, -, h0, rfl⟩ | ⟨-, -, -, rfl⟩ | ⟨-, rfl⟩
    · exact .call a _ _ h0
    · exact .fault _ (by decide)
    · exact .fault _ (by decide)
  | ret =>
    rcases execRet_cases h with ⟨-, rfl⟩ | ⟨-, rfl⟩
    · exact .ret _ _
    · exact .fault _ (by decide)

/-- Everything a step can do: the engine was running, and the step takes a fault of the fetch or the decoder, or executes
the instruction decoded at a program counter of at most 253. -/
theorem step_cases {s t : State} (h : step s = .next t) :
    s.run = .running ∧
      ((∃ k, k ≠ .unsupportedOperation ∧ t = faulted k s) ∨
        s.pc.toNat ≤ 253 ∧ ∃ i, decode (readByte s s.pc.toNat) (readByte s (s.pc.toNat + 1))
          (readByte s (s.pc.toNat + 2)) = .ok i ∧ exec i s = .next t) := by
  unfold step at h
  cases hr : s.run with
  | halted => simp [hr] at h
  | running =>
    rw [hr] at h
    refine ⟨rfl, ?_⟩
    rcases cycle_cases h with ⟨-, rfl⟩ | ⟨-, -, rfl⟩ | ⟨hp, m, hm, he⟩
    · exact .inl ⟨_, by decide, rfl⟩
    · exact .inl ⟨_, by decide, rfl⟩
    · exact .inr ⟨hp, _, decode_ok_iff.2 ⟨m, hm, rfl⟩, he⟩

/-- A step's change to the state, when no more of the instruction is asked than its effect: a fault of the fetch or the
decoder is one of the faults an instruction could take. -/
theorem step_effect {s t : State} (h : step s = .next t) : ∃ i, Effect s i t := by
  obtain ⟨-, ⟨k, hk, rfl⟩ | ⟨-, i, -, he⟩⟩ := step_cases h
  · exact ⟨.hlt, .fault _ hk⟩
  · exact ⟨i, exec_effect he⟩

/-! The program counter. -/

theorem advance_pc_toNat (f : Format) (s : State) (h : s.pc.toNat ≤ 253) :
    (advance f s).pc.toNat = s.pc.toNat + width f ∧ s.pc.toNat + width f ≤ 256 := by
  have hw : width f ≤ 3 := by cases f <;> decide
  rw [advance_pc, BitVec.toNat_add, BitVec.toNat_ofNat]
  omega

theorem jump_pc_le (v : Byte) (s : State) : (jump v s).pc.toNat ≤ 256 := by
  have := v.isLt
  rw [jump_pc, BitVec.toNat_setWidth]
  omega

/-! Fields, one at a time. -/

section Fields

variable {s t : State} {i : Instr}

/-- An instruction takes a fault or leaves the error record as it was. -/
theorem Effect.err_or_fault (h : Effect s i t) :
    t.err = s.err ∨ ∃ k, k ≠ .unsupportedOperation ∧ t = faulted k s := by
  cases h with
  | fault _ hk => exact .inr ⟨_, hk, rfl⟩
  | _ => exact .inl rfl

/-- Only HLT changes the engine state without a fault. -/
theorem Effect.control_or_fault (h : Effect s i t) (hi : i ≠ .hlt) : sameControlOrFault s t := by
  cases h with
  | fault => exact .inr ⟨_, rfl⟩
  | halt => exact absurd rfl hi
  | _ => exact .inl ⟨rfl, rfl⟩

theorem Effect.mem_wf (h : Effect s i t) (hm : s.mem.wf) : t.mem.wf := by
  cases h with
  | push a v | call a v w => exact memSet_wf _ _ _ (BitVec.isLt _) hm
  | _ => exact hm

theorem Effect.pc_le (h : Effect s i t) (hp : s.pc.toNat ≤ 253) : t.pc.toNat ≤ 256 := by
  have adv (f : Format) {u : State} (hu : u.pc = s.pc) : (advance f u).pc.toNat ≤ 256 := by
    obtain ⟨hsum, hle⟩ := advance_pc_toNat f u (hu ▸ hp)
    omega
  cases h with
  | fault | halt => exact hp.trans (by decide)
  | jump | call | ret => exact jump_pc_le _ _
  | _ => exact adv _ rfl

theorem Effect.fl_eq (h : Effect s i t) (hi : ∀ a b, i ≠ .cmp a b) : t.fl = s.fl := by
  cases h with
  | flags a b => exact absurd rfl (hi a b)
  | _ => rfl

theorem Effect.fl_legal (h : Effect s i t) (hf : legalFlags s.fl = true) : legalFlags t.fl = true := by
  cases h with
  | flags => exact legalFlags_compareFlags _ _
  | _ => exact hf

theorem Effect.out_eq (h : Effect s i t) (hi : ∀ a, i ≠ .prn a) : t.out = s.out := by
  cases h with
  | print a => exact absurd rfl (hi a)
  | _ => rfl

/-- The output is kept, or extended by one value. -/
theorem Effect.out_grows (h : Effect s i t) : ∃ vs : List Byte, t.out = s.out ++ vs ∧ vs.length ≤ 1 := by
  cases h with
  | print a v => exact ⟨[v], rfl, le_rfl⟩
  | _ => exact ⟨[], (List.append_nil _).symm, Nat.zero_le 1⟩

end Fields

/-! The invariant. -/

theorem Inv.of_faulted {s : State} (hs : Inv s) {k : FaultKind} (hk : k ≠ .unsupportedOperation) :
    Inv (faulted k s) where
  memory := hs.memory
  pc_range := hs.pc_range
  flags := hs.flags
  error := by
    rintro e ⟨⟩
    exact ⟨rfl, rfl, hk⟩

/-- A running engine holds no error record. -/
theorem Inv.err_eq_none {s : State} (hs : Inv s) (hr : s.run = .running) : s.err = none := by
  rw [Option.eq_none_iff_forall_ne_some]
  intro e he
  obtain ⟨hh, -, -⟩ := hs.error e he
  rw [hr] at hh
  cases hh

/-- An instruction entered by a cycle keeps the invariant. -/
theorem Inv.of_exec {s t : State} {i : Instr} (hs : Inv s) (hr : s.run = .running) (hp : s.pc.toNat ≤ 253)
    (h : exec i s = .next t) : Inv t := by
  have he := exec_effect h
  rcases he.err_or_fault with herr | ⟨k, hk, rfl⟩
  · refine ⟨he.mem_wf hs.memory, he.pc_le hp, he.fl_legal hs.flags, fun e hte => ?_⟩
    rw [herr, hs.err_eq_none hr] at hte
    cases hte
  · exact hs.of_faulted hk

/-- Settles O47: a fault keeps the invariant, and so does the instruction a running engine executes. -/
theorem everyStepKeepsTheInvariant : Obligations.EveryStepKeepsTheInvariant := by
  intro s t hs h
  obtain ⟨hr, ⟨k, hk, rfl⟩ | ⟨hp, i, -, he⟩⟩ := step_cases h
  · exact hs.of_faulted hk
  · exact hs.of_exec hr hp he

/-- Settles O46: the memory clause is `reset_memory_wf`, the others are read off the reset state. -/
theorem invariantHoldsAtReset : Obligations.InvariantHoldsAtReset where
  memory := reset_memory_wf
  pc_range := by decide
  flags := by decide
  error := by rintro e ⟨⟩

/-- Settles O15: each outcome of a cycle is a next state, by `exec_next` where an instruction is executed. -/
theorem runningEngineStepsHaltedEngineDoesNot : Obligations.RunningEngineStepsHaltedEngineDoesNot := by
  refine ⟨rfl, fun s hr => ?_, fun s hr => by rw [step, hr]⟩
  have hstep : step s = cycle s := by rw [step, hr]
  rw [hstep, cycle]
  cases fetch s with
  | error k => exact ⟨_, rfl⟩
  | ok f =>
    rw [orRaise_ok]
    cases decode f.ir f.a f.b with
    | error e => exact ⟨_, rfl⟩
    | ok i => exact exec_next i s

/-! Frames. -/

/-- Settles O39: the effect is a fault or the writing of the result register. -/
theorem frameOfRegisterWritingInstructions : Obligations.FrameOfRegisterWritingInstructions := by
  intro i a b s t hi h
  have hres : i.resultOperand = some a := by rcases hi with rfl | rfl | rfl | rfl | rfl <;> rfl
  cases exec_effect h with
  | fault => exact ⟨fun _ _ => rfl, rfl, rfl, fun _ => rfl, .inr ⟨_, rfl⟩⟩
  | @result _ a' ra v f hi' ha =>
    obtain rfl : a' = a := Option.some.inj (hi'.symm.trans hres)
    refine ⟨fun r hr => ?_, rfl, rfl, fun _ => rfl, .inl ⟨rfl, rfl⟩⟩
    have hne : r ≠ ra := fun e => hr (e ▸ ha)
    rw [readReg_advance, readReg_writeReg_other s ra r v hne]
  | jump _ hb | skip hb => rcases hi with rfl | rfl | rfl | rfl | rfl <;> cases hb
  | _ => cases hres

/-- Settles O40: none of the effects these instructions can have writes a register or Memory; the other fields are those
of every instruction. -/
theorem frameOfInstructionsWithoutRegisterResult : Obligations.FrameOfInstructionsWithoutRegisterResult := by
  intro i a b s t hi h
  have he := exec_effect h
  have frame : t.regs = s.regs ∧ t.mem = s.mem := by
    cases he with
    | result _ _ hres => rcases hi with rfl | rfl | rfl | rfl | rfl | rfl <;> cases hres
    | push | pop | call | ret => simp at hi
    | _ => exact ⟨rfl, rfl⟩
  obtain ⟨hregs, hmem⟩ := frame
  refine ⟨fun r => by rw [readReg, hregs]; rfl, fun n => by rw [readByte, hmem]; rfl,
    fun hcmp => ?_, fun hprn => ?_, ?_, he.control_or_fault⟩
  · refine he.fl_eq ?_
    rintro a' b' rfl
    obtain ⟨rfl, rfl⟩ : a' = a ∧ b' = b := by simpa using hi
    exact hcmp rfl
  · refine he.out_eq ?_
    rintro a' rfl
    obtain rfl : a' = a := by simpa using hi
    exact hprn rfl
  · rintro rfl
    obtain rfl := Host.Outcome.next.inj h
    exact ⟨rfl, rfl⟩

/-! The output over a run. -/

/-- A run of `k + 1` steps is a step and a run of `k`. -/
theorem run_succ_next {M : Host.Core} {k : Nat} {s t : M.State} (h : M.run (k + 1) s = .next t) :
    ∃ u, M.step s = .next u ∧ M.run k u = .next t := by
  rw [Host.Core.run] at h
  cases hs : M.step s with
  | next u => exact ⟨u, rfl, by simpa only [hs] using h⟩
  | fault r => simp [hs] at h
  | refused r => simp [hs] at h

/-- Settles O45, by induction on the number of steps. -/
theorem outputOnlyGrows : Obligations.OutputOnlyGrows := by
  intro k
  induction k with
  | zero =>
    intro s t h
    obtain rfl := Host.Outcome.next.inj h
    exact ⟨[], (List.append_nil _).symm, le_rfl⟩
  | succ k ih =>
    intro s t h
    obtain ⟨u, hstep, hrun⟩ := run_succ_next h
    obtain ⟨i, he⟩ := step_effect hstep
    obtain ⟨vs, hu, hvs⟩ := he.out_grows
    obtain ⟨ws, ht, hws⟩ := ih u t hrun
    refine ⟨vs ++ ws, by rw [ht, hu, List.append_assoc], ?_⟩
    rw [List.length_append]
    omega

/-! Reading the flags. -/

/-- The second outcome is the first, a next state, but for the flags. -/
def SameButFlags (r r' : Result) : Prop := ∀ t, r = .next t → ∃ f, r' = .next (writeFlags f t)

theorem sameButFlags_next (f : Byte) (t : State) : SameButFlags (.next t) (.next (writeFlags f t)) := by
  rintro u ⟨⟩
  exact ⟨f, rfl⟩

/-- The register check does not read the flags. -/
theorem withReg_sameButFlags (a f : Byte) (s : State) {go go' : Reg → Result}
    (h : ∀ r, SameButFlags (go r) (go' r)) : SameButFlags (withReg a s go) (withReg a (writeFlags f s) go') := by
  unfold withReg
  cases regOperand a with
  | ok r => exact h r
  | error k => exact sameButFlags_next f (faulted k s)

/-- The ALU instructions do not read the flags. -/
theorem execAlu_sameButFlags (op : AluOp) (a b f : Byte) (s : State) :
    SameButFlags (execAlu op a b s) (execAlu op a b (writeFlags f s)) := by
  refine withReg_sameButFlags a f s fun ra => withReg_sameButFlags b f s fun rb => ?_
  simp only [readReg_writeFlags]
  cases aluApply op (readReg s ra) (readReg s rb) with
  | value v => exact sameButFlags_next f _
  | flags g => exact sameButFlags_next g (advance .f2rr (writeFlags g s))
  | fault k => exact sameButFlags_next f (faulted k s)

/-- A branch reads no more of the flags than whether it is taken. -/
theorem execBranch_sameButFlags {op : BranchOp} {f : Byte} {s : State} (h : taken op f = taken op s.fl) (a : Byte) :
    SameButFlags (execBranch op a s) (execBranch op a (writeFlags f s)) := by
  refine withReg_sameButFlags a f s fun ra => ?_
  rw [writeFlags_fl, h, readReg_writeFlags]
  split
  · exact sameButFlags_next f (jump _ s)
  · exact sameButFlags_next f (advance _ s)

@[simp] theorem writeReg_writeFlags (r : Reg) (v f : Byte) (s : State) :
    writeReg r v (writeFlags f s) = writeFlags f (writeReg r v s) := rfl

/-- PUSH does not read the flags. -/
theorem execPush_sameButFlags (a f : Byte) (s : State) :
    SameButFlags (execPush a s) (execPush a (writeFlags f s)) := by
  refine withReg_sameButFlags a f s fun ra => ?_
  rw [push_eq, push_eq, sp_writeFlags]
  split <;> exact sameButFlags_next f _

/-- POP does not read the flags. -/
theorem execPop_sameButFlags (a f : Byte) (s : State) :
    SameButFlags (execPop a s) (execPop a (writeFlags f s)) := by
  refine withReg_sameButFlags a f s fun ra => ?_
  rw [pop_eq, pop_eq, sp_writeFlags, readByte_writeFlags, writeReg_writeFlags, sp_writeFlags]
  split <;> exact sameButFlags_next f _

/-- CALL does not read the flags. -/
theorem execCall_sameButFlags (a f : Byte) (s : State) :
    SameButFlags (execCall a s) (execCall a (writeFlags f s)) := by
  refine withReg_sameButFlags a f s fun ra => ?_
  rw [push_eq, push_eq, sp_writeFlags]
  split <;> exact sameButFlags_next f _

/-- RET does not read the flags. -/
theorem execRet_sameButFlags (f : Byte) (s : State) : SameButFlags (execRet s) (execRet (writeFlags f s)) := by
  rw [execRet_eq, execRet_eq, sp_writeFlags]
  split <;> exact sameButFlags_next f _

/-- An instruction other than JEQ and JNE does not read the flags, and those two read bit E alone. -/
theorem exec_sameButFlags (i : Instr) (s : State) (f : Byte)
    (h : (∀ a, i ≠ .jeq a) ∧ (∀ a, i ≠ .jne a) ∨ equalSet f = equalSet s.fl) :
    SameButFlags (exec i s) (exec i (writeFlags f s)) := by
  cases i with
  | ldi a imm => exact withReg_sameButFlags a f s fun ra => sameButFlags_next f _
  | prn a => exact withReg_sameButFlags a f s fun ra => sameButFlags_next f _
  | hlt => exact sameButFlags_next f (halt s)
  | add a b => exact execAlu_sameButFlags .add a b f s
  | sub a b => exact execAlu_sameButFlags .sub a b f s
  | mul a b => exact execAlu_sameButFlags .mul a b f s
  | div a b => exact execAlu_sameButFlags .div a b f s
  | cmp a b => exact execAlu_sameButFlags .cmp a b f s
  | jmp a => exact execBranch_sameButFlags (op := .jmp) (f := f) rfl a
  | jeq a =>
    have he : equalSet f = equalSet s.fl := h.resolve_left fun hn => hn.1 a rfl
    exact execBranch_sameButFlags (op := .jeq) he a
  | jne a =>
    have he : equalSet f = equalSet s.fl := h.resolve_left fun hn => hn.2 a rfl
    exact execBranch_sameButFlags (op := .jne) (congrArg not he) a
  | push a => exact execPush_sameButFlags a f s
  | pop a => exact execPop_sameButFlags a f s
  | call a => exact execCall_sameButFlags a f s
  | ret => exact execRet_sameButFlags f s

/-- Settles O43: writing is read off the effect of an instruction, reading off `exec_sameButFlags`. -/
theorem flagsAreWrittenByCmpAndReadByJumps : Obligations.FlagsAreWrittenByCmpAndReadByJumps := by
  refine ⟨fun i s t h => (exec_effect h).fl_eq, fun s t h herr => ?_, fun a b s t h => ?_, fun i s t f h hi => ?_⟩
  · obtain ⟨i, he⟩ := step_effect h
    rcases he.err_or_fault with heq | ⟨k, -, rfl⟩
    · exact absurd heq herr
    · rfl
  · cases exec_effect h with
    | fault => exact .inl ⟨⟨_, rfl⟩, rfl⟩
    | flags => exact .inr (compareFlags_cases _ _)
    | result _ _ hres => cases hres
    | jump _ hb | skip hb => cases hb
  · exact exec_sameButFlags i s f hi t h

/-! Reset, registers, the advance. -/

/-- Settles O1: the eight registers by enumeration, the other fields by their reset values. -/
theorem resetLeavesTheTabledValues : Obligations.ResetLeavesTheTabledValues :=
  ⟨by decide, rfl, rfl, rfl, rfl, rfl, fun _ => rfl⟩

/-- Settles O2, by the register laws of the state. -/
theorem registerReadsWhatWasWritten : Obligations.RegisterReadsWhatWasWritten :=
  fun s r v => ⟨readReg_writeReg_same s r v, fun q => readReg_writeReg_other s r q v⟩

/-- Settles O16: no format is wider than 3 and 253 + 3 fits nine bits. -/
theorem advanceNeverWraps : Obligations.AdvanceNeverWraps := advance_pc_toNat

end Sys2Proof.Machine
end

section
/-! Proofs: the access contracts of Memory, its canonical form, and the writing of Memory by a step (20_memory.md). -/

namespace Sys2Proof

/-- What the decoder answers on a byte that is the opcode of no row. -/
theorem decode_unknown {ir : Byte} (h : ∀ m, opcode m ≠ ir) (a b : Byte) :
    decode ir a b = .error (.illegalInstruction ir) := by
  rw [decode, (lookupOpcode_none_iff ir).2 h]

end Sys2Proof

namespace Sys2Proof.Machine

/-! The access primitives. -/

theorem inMemory_eq_false {a : Int} (h : a < 0 ∨ 255 < a) : inMemory a = false := by
  rw [Bool.eq_false_iff, Ne, inMemory_iff]
  omega

/-- Settles O7: the two answers of a read, by the range check. -/
theorem memReadFollowsItsContract : Obligations.MemReadFollowsItsContract := fun s a =>
  ⟨fun h0 h255 => memRead_ok a s ((inMemory_iff a).2 ⟨h0, by omega⟩),
    fun h => memRead_error a s (inMemory_eq_false h)⟩

/-- Settles O8: the two answers of a write, by the range check, and what reads back after it. -/
theorem memWriteFollowsItsContract : Obligations.MemWriteFollowsItsContract := by
  refine fun s a v => ⟨fun h0 h255 => ?_, fun h => memWrite_error a v s (inMemory_eq_false h)⟩
  refine ⟨writeByte a.toNat v s, memWrite_ok a v s ((inMemory_iff a).2 ⟨h0, by omega⟩),
    readByte_writeByte_same s _ v, fun n hn => readByte_writeByte_other s _ n v ?_, rfl, rfl, rfl, rfl, rfl, rfl⟩
  omega

/-! The canonical form. -/

/-- Where addresses strictly rise, an entry is what its address reads as. -/
theorem memGet_of_mem {m : Memory} (hm : m.Pairwise fun c d => c.1 < d.1) {c : Host.Cell} (hc : c ∈ m) :
    memGet m c.1 = c.2 := by
  induction m with
  | nil => cases hc
  | cons d m ih =>
    obtain ⟨hd, hrest⟩ := List.pairwise_cons.1 hm
    rcases List.mem_cons.1 hc with rfl | hc
    · exact if_pos rfl
    · exact (if_neg (hd c hc).ne).trans (ih hrest hc)

/-- An address that does not read as the reset value has an entry. -/
theorem mem_of_memGet_ne_reset {m : Memory} {a : Nat} (h : memGet m a ≠ Config.memReset) :
    (a, memGet m a) ∈ m := by
  induction m with
  | nil => exact absurd rfl h
  | cons d m ih =>
    obtain ⟨k, v⟩ := d
    by_cases hk : k = a
    · simp [memGet, hk]
    · simp only [memGet, if_neg hk] at h ⊢
      exact List.mem_cons_of_mem _ (ih h)

/-- In canonical form the entries are the addresses that do not read as the reset value, each with its byte. -/
theorem Memory.wf.mem_iff {m : Memory} (hm : m.wf) (c : Host.Cell) :
    c ∈ m ↔ memGet m c.1 = c.2 ∧ c.2 ≠ Config.memReset := by
  obtain ⟨hs, hcells⟩ := hm
  constructor
  · intro hc
    obtain ⟨-, hne⟩ := hcells c hc
    exact ⟨memGet_of_mem hs hc, hne⟩
  · rintro ⟨hget, hne⟩
    have := mem_of_memGet_ne_reset (hget ▸ hne)
    rwa [hget] at this

/-- In canonical form a cell outside 0..255 reads as the reset value. -/
theorem Memory.wf.memGet_of_le {m : Memory} (hm : m.wf) {n : Nat} (hn : 256 ≤ n) : memGet m n = Config.memReset := by
  obtain ⟨-, hcells⟩ := hm
  refine memGet_absent m n fun c hc => ?_
  obtain ⟨hlt, -⟩ := hcells c hc
  exact (hlt.trans_le hn).ne

/-- Settles O9: the two lists rise strictly and, by what they read as, have the same entries. -/
theorem equalReadsMeanEqualMemories : Obligations.EqualReadsMeanEqualMemories := by
  intro m m' hm hm' hread
  have reads (n : Nat) : memGet m n = memGet m' n := by
    rcases Nat.lt_or_ge n 256 with hn | hn
    · exact hread n hn
    · rw [hm.memGet_of_le hn, hm'.memGet_of_le hn]
  have : Std.Irrefl fun c d : Host.Cell => c.1 < d.1 := ⟨fun c => lt_irrefl c.1⟩
  have : Std.Antisymm fun c d : Host.Cell => c.1 < d.1 := ⟨fun _ _ h h' => absurd h' h.asymm⟩
  exact hm.1.eq_of_mem_iff hm'.1 fun c => by rw [hm.mem_iff, hm'.mem_iff, reads]

/-! Who writes Memory. -/

theorem sp_sub_one_toNat {s : State} (h0 : sp s ≠ 0) : (sp s - 1).toNat + 1 = (sp s).toNat := by
  bv_omega

/-- A byte of Memory that changed is the one just below the stack pointer, and a PUSH or a CALL changed it. -/
theorem Effect.readByte_changed {s t : State} {i : Instr} {n : Nat} (h : Effect s i t)
    (hn : readByte t n ≠ readByte s n) : n + 1 = (sp s).toNat ∧ ∃ a, i = .push a ∨ i = .call a := by
  have stored {v : Byte} {u : State} (h0 : sp s ≠ 0) (hu : readByte u n = readByte s n)
      (hw : readByte (writeByte (sp s - 1).toNat v u) n ≠ readByte s n) : n + 1 = (sp s).toNat := by
    rw [readByte_writeByte, hu] at hw
    split at hw
    · next hcell => rw [hcell, sp_sub_one_toNat h0]
    · exact absurd rfl hw
  cases h with
  | push a v h0 => exact ⟨stored h0 rfl hn, a, .inl rfl⟩
  | call a v w h0 => exact ⟨stored h0 rfl hn, a, .inr rfl⟩
  | _ => exact absurd rfl hn

/-- Settles O44: a fault of the fetch or the decoder writes no Memory, and of the instructions PUSH and CALL alone do. -/
theorem memoryIsWrittenByPushAndCallAlone : Obligations.MemoryIsWrittenByPushAndCallAlone := by
  intro s t n h hn
  obtain ⟨-, ⟨k, -, rfl⟩ | ⟨-, i, hdec, he⟩⟩ := step_cases h
  · exact absurd rfl hn
  · obtain ⟨hcell, a, hi⟩ := (exec_effect he).readByte_changed hn
    refine ⟨hcell, a, ?_⟩
    rcases hi with rfl | rfl
    · exact .inl hdec
    · exact .inr hdec

/-! What a step does with the byte fetched as its opcode. -/

section Fetched

variable {s : State} (hr : s.run = .running) (hp : s.pc.toNat ≤ 253)
include hr hp

/-- A step of a running engine at a program counter of at most 253 runs what the decoder gives on the three bytes there. -/
theorem step_of_decode_ok {i : Instr}
    (h : decode (readByte s s.pc.toNat) (readByte s (s.pc.toNat + 1)) (readByte s (s.pc.toNat + 2)) = .ok i) :
    step s = exec i s := by
  simp only [step, hr, cycle, fetch_ok s hp, orRaise_ok, h]

/-- From a byte that is the opcode of no row it takes IllegalInstruction. -/
theorem step_of_unknown_opcode (h : ∀ m, opcode m ≠ readByte s s.pc.toNat) :
    step s = .next (faulted .illegalInstruction s) := by
  simp only [step, hr, cycle, fetch_ok s hp, orRaise_ok, decode_unknown h, decodeFault, raise]

end Fetched

/-! A byte pushed into the cell of the next instruction. -/

/-- What the PUSH of a register leaves, from a stack pointer above 0: the register's value, read after the decrement, stands
in the cell the lowered stack pointer names. -/
theorem exec_push_next {s t : State} {a : Byte} {ra : Reg} (ha : a.toNat = ra.val) (h0 : sp s ≠ 0)
    (h : exec (.push a) s = .next t) :
    t.pc = s.pc + 2 ∧ t.run = s.run ∧ (sp t).toNat + 1 = (sp s).toNat ∧
      readByte t (sp t).toNat = if ra = 7 then sp t else readReg s ra := by
  rw [exec_push, execPush_eq ha, if_neg h0, Host.Outcome.next.injEq] at h
  subst h
  have hsp : sp (writeReg Config.spIndex (sp s - 1) s) = sp s - 1 := sp_writeReg_sp s _
  refine ⟨rfl, rfl, ?_, ?_⟩
  · rw [sp_advance, sp_writeByte, hsp, sp_sub_one_toNat h0]
  · rw [sp_advance, sp_writeByte, hsp, readByte_advance, readByte_writeByte_same, readReg_writeReg]

/-- Settles O52: the cell pushed to is the one the program counter reaches, and the next cycle fetches it. -/
theorem pushedByteIsFetchedByTheNextCycle : Obligations.PushedByteIsFetchedByTheNextCycle := by
  intro s t a v ra hr ha hpc hcell h hv
  have h0 : sp s ≠ 0 := by
    intro e
    rw [e] at hcell
    exact absurd hcell (by simp)
  obtain ⟨htpc, htr, htsp, hbyte⟩ := exec_push_next ha h0 h
  have hpc2 : t.pc.toNat = s.pc.toNat + 2 := by
    rw [htpc]
    bv_omega
  have hread : readByte t t.pc.toNat = v := by
    rw [hv, ← hbyte]
    congr 1
    omega
  have htr' : t.run = .running := htr.trans hr
  have htp : t.pc.toNat ≤ 253 := by omega
  have runs (i : Instr) (hdec : decode v (readByte t (t.pc.toNat + 1)) (readByte t (t.pc.toNat + 2)) = .ok i) :
      step t = exec i t := step_of_decode_ok htr' htp (by rwa [hread])
  refine ⟨hpc2, hread, by rw [fetch_ok t htp, hread], runs, fun hill => ?_, ?_⟩
  · exact step_of_unknown_opcode htr' htp (by rwa [hread])
  · rintro rfl
    exact runs .hlt (decode_opcode .hlt _ _)

end Sys2Proof.Machine
end

section
/-! Proofs: decoding and encoding are inverse to each other, and a step runs the instruction encoded at the program counter
(30_encoding.md). -/

namespace Sys2Proof

/-! The rows of the opcode map. -/

theorem opcode_injective : Function.Injective opcode := fun m n h =>
  Option.some.inj (by rw [← lookupOpcode_opcode m, h, lookupOpcode_opcode])

/-- Settles O3, by what the decoder answers on the opcode of a row and on any other byte. -/
theorem decodeSelectsTheRowByOpcode : Obligations.DecodeSelectsTheRowByOpcode := by
  refine fun ir a b => ⟨?_, fun h => decode_unknown h a b⟩
  rintro m rfl
  exact decode_opcode m a b

/-- The byte values the lookup finds a row for are the opcodes of the rows, each once. -/
theorem legalBytes_perm :
    ((List.range 256).filter fun n => (lookupOpcode (BitVec.ofNat 8 n)).isSome).Perm
      (dispatchTable.map fun m => (opcode m).toNat) := by
  refine (List.perm_ext_iff_of_nodup (List.nodup_range.filter _) ?_).2 fun n => ?_
  · exact List.Nodup.map (fun _ _ h => opcode_injective (BitVec.eq_of_toNat_eq h)) (by decide)
  · simp only [List.mem_filter, List.mem_range, List.mem_map, mem_dispatchTable, true_and, Option.isSome_iff_exists]
    constructor
    · rintro ⟨hn, m, hm⟩
      exact ⟨m, by rw [lookupOpcode_some hm, BitVec.toNat_ofNat, Nat.mod_eq_of_lt hn]⟩
    · rintro ⟨m, rfl⟩
      exact ⟨(opcode m).isLt, m, by rw [BitVec.ofNat_toNat, BitVec.setWidth_eq, lookupOpcode_opcode]⟩

/-- Settles O4: of the 256 byte values the legal ones are as many as the rows. -/
theorem fifteenOpcodesAreDistinct : Obligations.FifteenOpcodesAreDistinct := by
  refine ⟨fun _ _ h => opcode_injective h, ?_⟩
  have rows : dispatchTable.length = 15 := rfl
  have total := List.length_eq_length_filter_add (l := List.range 256)
    fun n => (lookupOpcode (BitVec.ofNat 8 n)).isSome
  simp only [legalBytes_perm.length_eq, List.length_map, List.length_range, rows, Option.not_isSome] at total
  omega

/-- Settles O5, by evaluating the decoder on each word. -/
theorem sampleWordsDecode : Obligations.SampleWordsDecode :=
  ⟨rfl, rfl, rfl, rfl, rfl, rfl⟩

/-! Decoding against encoding. -/

/-- The operand bytes, whatever follows them, build the instruction again on its own row. -/
theorem build_operands_append (i : Instr) (rest : List Byte) :
    build ((i.operands ++ rest).getD 0 0) ((i.operands ++ rest).getD 1 0) i.mnemonic = i := by
  cases i <;> rfl

/-- An instruction built from two bytes has as operands those of the two that its format takes (R71, R72). -/
theorem build_operands (a b : Byte) (m : Mnemonic) :
    (build a b m).operands = [a, b].take (width (format m) - 1) := by
  cases m <;> rfl

theorem decodeBytes_encode_append (i : Instr) (rest : List Byte) : decodeBytes (encode i ++ rest) = .ok i := by
  calc decodeBytes (encode i ++ rest)
      = decode (opcode i.mnemonic) ((i.operands ++ rest).getD 0 0) ((i.operands ++ rest).getD 1 0) := rfl
    _ = .ok i := by rw [decode_opcode, build_operands_append]

/-- Three bytes decode to an instruction exactly when they begin with its encoding. -/
theorem decode_ok_iff_encode_prefix {ir a b : Byte} {i : Instr} :
    decode ir a b = .ok i ↔ encode i <+: [ir, a, b] := by
  constructor
  · intro h
    obtain ⟨m, hm, rfl⟩ := decode_ok_iff.1 h
    rw [encode, build_mnemonic, lookupOpcode_some hm, build_operands]
    exact List.cons_prefix_cons.2 ⟨rfl, List.take_prefix _ _⟩
  · rintro ⟨rest, h⟩
    have decoded := decodeBytes_encode_append i rest
    rwa [h] at decoded

/-- Settles O6: `decodeBytes_encode_append`, and the converse as the prefix the encoding is. -/
theorem decodeAndEncodeAgree : Obligations.DecodeAndEncodeAgree :=
  ⟨decodeBytes_encode_append, fun _ _ _ _ => decode_ok_iff_encode_prefix.1⟩

theorem encode_length_le (i : Instr) : (encode i).length ≤ 3 := by
  cases i <;> simp [encode, Instr.operands]

end Sys2Proof

namespace Sys2Proof.Machine

/-- Bytes of Memory that agree with an encoding, as far as it reaches, make it a prefix of the three a fetch reads. -/
theorem encode_prefix_of_readByte {s : State} {n : Nat} {i : Instr}
    (h : ∀ (k : Nat) (hk : k < (encode i).length), readByte s (n + k) = (encode i)[k]) :
    encode i <+: [readByte s n, readByte s (n + 1), readByte s (n + 2)] := by
  refine List.prefix_iff_getElem.2 ⟨encode_length_le i, fun k hk => ?_⟩
  rw [← h k hk]
  match k, hk.trans_le (encode_length_le i) with
  | 0, _ | 1, _ | 2, _ => rfl

/-- Settles O11: the three bytes fetched begin with the encoding, so they decode to the instruction. -/
theorem stepRunsTheInstructionEncodedInMemory : Obligations.StepRunsTheInstructionEncodedInMemory :=
  fun _ _ hr hp h => step_of_decode_ok hr hp (decode_ok_iff_encode_prefix.2 (encode_prefix_of_readByte h))

end Sys2Proof.Machine
end

section
/-! Proofs: a step by what it fetches, and the faults an instruction can take with the cause of each (40_engine_cycle.md). -/

namespace Sys2Proof

/-! The words of the opcode table. -/

/-- A table word stands for an instruction exactly when its three bytes, in address order, decode to it. -/
theorem decodeTableWord_eq_some {nbits w : Nat} {i : Instr} :
    decodeTableWord nbits w = some i ↔ decodeBytes (wordBytes nbits w) = .ok i := by
  rw [decodeTableWord]
  cases decodeBytes (wordBytes nbits w) <;> simp [Except.toOption]

end Sys2Proof

namespace Sys2Proof.Machine

/-! A step by what it fetches. -/

/-- Settles O10, by `step_of_decode_ok`. -/
theorem stepRunsTheDecodedInstruction : Obligations.StepRunsTheDecodedInstruction :=
  fun _ _ hr hp h => step_of_decode_ok hr hp h

/-- Settles O12: the fetch fails and the cycle takes its fault. -/
theorem unfetchablePcRaisesAddressOutOfRange : Obligations.UnfetchablePcRaisesAddressOutOfRange := by
  intro s hr hp
  simp only [step, hr, cycle, fetch_error s hp, orRaise_error, faulted]

/-! A word placed where the next step fetches. -/

/-- Placing bytes leaves every address outside their range as it was, also one that is no cell. -/
theorem memGet_placeBytes_outside {bs : List Byte} {m : Memory} {a n : Nat} (h : n < a ∨ a + bs.length ≤ n) :
    memGet (placeBytes m a bs) n = memGet m n := by
  induction bs generalizing m a with
  | nil => rfl
  | cons v bs ih =>
    rw [List.length_cons] at h
    rw [placeBytes_cons, ih (by omega)]
    split
    · exact memGet_memSet_other m a n v (by omega)
    · rfl

/-- From a program counter a fetch succeeds at, the three bytes fetched are those of the word placed. -/
theorem readByte_withFetchWord {s : State} (hp : s.pc.toNat ≤ 253) (nbits w : Nat) {k : Nat} (hk : k < 3) :
    readByte (s.withFetchWord nbits w) (s.pc.toNat + k) = (wordBytes nbits w).getD k 0 := by
  have hlen : k < (wordBytes nbits w).length := hk
  have placed := memGet_placeBytes (wordBytes nbits w) s.mem s.pc.toNat (s.pc.toNat + k) (by omega)
  simpa [readByte, State.withFetchWord, hlen] using placed

/-- Settles O54: the bytes fetched are the bytes of the word, and the decoder reads the instruction from them. -/
theorem placedWordIsRunByTheNextStep : Obligations.PlacedWordIsRunByTheNextStep := by
  intro s nbits w i hr hp hw
  have fetched (k : Nat) (hk : k < 3) := readByte_withFetchWord hp nbits w hk
  have decoded := decodeTableWord_eq_some.1 hw
  rw [decodeBytes, ← fetched 0 (by decide), ← fetched 1 (by decide), ← fetched 2 (by decide)] at decoded
  exact ⟨step_of_decode_ok (s := s.withFetchWord nbits w) hr hp decoded,
    fun n hn => memGet_placeBytes_outside (hn.imp_right Nat.succ_le_of_lt)⟩

/-! The faults of an instruction. -/

/-- Settles O14: each meaning begins with the register check of its format. -/
theorem badRegisterByteRaisesInvalidRegister : Obligations.BadRegisterByteRaisesInvalidRegister := by
  intro i s h
  cases i with
  | hlt | ret => cases h
  | ldi | prn | jmp | jeq | jne | push | pop | call => exact withReg_invalid h s _
  | add | sub | mul | div | cmp => exact withRegs_invalid h s _

/-- `FaultCause s i k`: why instruction `i` takes fault `k` in state `s` (R94, R95). -/
inductive FaultCause (s : State) : Instr → FaultKind → Prop
  /-- A register position holds a byte above 7. -/
  | register {i : Instr} (h : i.wf = false) : FaultCause s i .invalidRegister
  /-- DIV: the divisor is 0. -/
  | divisor (a : Byte) {b : Byte} {rb : Reg} (hb : b.toNat = rb.val) (h0 : readReg s rb = 0) :
      FaultCause s (.div a b) .divisionByZero
  /-- PUSH: the stack pointer cannot be lowered. -/
  | push (a : Byte) (h0 : sp s = 0) : FaultCause s (.push a) .addressOutOfRange
  /-- CALL: as PUSH. -/
  | call (a : Byte) (h0 : sp s = 0) : FaultCause s (.call a) .addressOutOfRange
  /-- POP: the stack pointer, after the popped byte is delivered, cannot be raised. -/
  | pop {a : Byte} {ra : Reg} (ha : a.toNat = ra.val)
      (htop : sp (writeReg ra (readByte s (sp s).toNat) s) = 255) : FaultCause s (.pop a) .addressOutOfRange
  /-- RET: the stack pointer cannot be raised. -/
  | ret (htop : sp s = 255) : FaultCause s .ret .addressOutOfRange

theorem aluApply_div_fault {va vb : Byte} {k : FaultKind} (h : aluApply .div va vb = .fault k) :
    vb = 0 ∧ k = .divisionByZero := by
  simp only [aluApply] at h
  split at h
  · next h0 => exact ⟨h0, (AluResult.fault.inj h).symm⟩
  · cases h

section Caused

variable {s t : State} {i : Instr}

theorem execAlu_err_or_cause {op : AluOp} {a b : Byte} (ho : op ≠ .other) (hdiv : op = .div → i = .div a b)
    (hwf : i.wf = (namesRegister a && namesRegister b)) (h : execAlu op a b s = .next t) :
    t.err = s.err ∨ ∃ k, FaultCause s i k ∧ t = faulted k s := by
  rcases execAlu_cases h with ⟨ra, rb, v, -, -, -, rfl⟩ | ⟨ra, rb, f, -, -, -, rfl⟩ |
    ⟨ra, rb, k, -, hb, hk, rfl⟩ | ⟨hbad, rfl⟩
  · exact .inl rfl
  · exact .inl rfl
  · rcases aluApply_fault hk with hop | ⟨rfl, -⟩
    · exact absurd hop ho
    · obtain ⟨h0, rfl⟩ := aluApply_div_fault hk
      obtain rfl := hdiv rfl
      exact .inr ⟨_, .divisor a hb h0, rfl⟩
  · exact .inr ⟨_, .register (hwf.trans hbad), rfl⟩

theorem execBranch_err_or_cause {op : BranchOp} {a : Byte} (hwf : i.wf = namesRegister a)
    (h : execBranch op a s = .next t) : t.err = s.err ∨ ∃ k, FaultCause s i k ∧ t = faulted k s := by
  rcases execBranch_cases h with ⟨ra, -, -, rfl⟩ | ⟨ra, -, -, rfl⟩ | ⟨hbad, rfl⟩
  · exact .inl rfl
  · exact .inl rfl
  · exact .inr ⟨_, .register (hwf.trans hbad), rfl⟩

/-- An instruction leaves the error record as it was, or takes a fault that has a cause. -/
theorem exec_err_or_cause (h : exec i s = .next t) :
    t.err = s.err ∨ ∃ k, FaultCause s i k ∧ t = faulted k s := by
  cases i with
  | ldi a imm =>
    rcases execLdi_cases h with ⟨ra, -, rfl⟩ | ⟨hbad, rfl⟩
    · exact .inl rfl
    · exact .inr ⟨_, .register hbad, rfl⟩
  | prn a =>
    rcases execPrn_cases h with ⟨ra, -, rfl⟩ | ⟨hbad, rfl⟩
    · exact .inl rfl
    · exact .inr ⟨_, .register hbad, rfl⟩
  | hlt =>
    obtain rfl := Host.Outcome.next.inj h
    exact .inl rfl
  | add a b => exact execAlu_err_or_cause (op := .add) (by decide) nofun rfl h
  | sub a b => exact execAlu_err_or_cause (op := .sub) (by decide) nofun rfl h
  | mul a b => exact execAlu_err_or_cause (op := .mul) (by decide) nofun rfl h
  | div a b => exact execAlu_err_or_cause (op := .div) (by decide) (fun _ => rfl) rfl h
  | cmp a b => exact execAlu_err_or_cause (op := .cmp) (by decide) nofun rfl h
  | jmp a => exact execBranch_err_or_cause (op := .jmp) rfl h
  | jeq a => exact execBranch_err_or_cause (op := .jeq) rfl h
  | jne a => exact execBranch_err_or_cause (op := .jne) rfl h
  | push a =>
    rcases execPush_cases h with ⟨ra, -, -, rfl⟩ | ⟨ra, -, h0, rfl⟩ | ⟨hbad, rfl⟩
    · exact .inl rfl
    · exact .inr ⟨_, .push a h0, rfl⟩
    · exact .inr ⟨_, .register hbad, rfl⟩
  | pop a =>
    rcases execPop_cases h with ⟨ra, -, -, rfl⟩ | ⟨ra, ha, htop, rfl⟩ | ⟨hbad, rfl⟩
    · exact .inl rfl
    · exact .inr ⟨_, .pop ha htop, rfl⟩
    · exact .inr ⟨_, .register hbad, rfl⟩
  | call a =>
    rcases execCall_cases h with ⟨ra, -, -, rfl⟩ | ⟨ra, -, h0, rfl⟩ | ⟨hbad, rfl⟩
    · exact .inl rfl
    · exact .inr ⟨_, .call a h0, rfl⟩
    · exact .inr ⟨_, .register hbad, rfl⟩
  | ret =>
    rcases execRet_cases h with ⟨-, rfl⟩ | ⟨htop, rfl⟩
    · exact .inl rfl
    · exact .inr ⟨_, .ret htop, rfl⟩

end Caused

/-- The stack pointer after a write to the register an operand byte names: only the byte 7 names it. -/
theorem sp_writeReg_of_operand {a : Byte} {ra : Reg} (ha : a.toNat = ra.val) (v : Byte) (s : State) :
    sp (writeReg ra v s) = if a = 7 then v else sp s := by
  have h7 : Config.spIndex = ra ↔ a = 7 := by
    rw [Fin.ext_iff, ← BitVec.toNat_inj, ha]
    exact eq_comm
  rw [sp, readReg_writeReg, sp, if_congr h7 rfl rfl]

/-- Settles O18: of the causes of a fault, a good register operand rules out one and the others are those listed. -/
theorem handlersRaiseOnlyTheirFaults : Obligations.HandlersRaiseOnlyTheirFaults := by
  intro i s t hwf h herr
  rcases exec_err_or_cause h with heq | ⟨k, hcause, rfl⟩
  · exact absurd heq herr
  · cases hcause with
    | register hbad =>
      rw [hwf] at hbad
      cases hbad
    | divisor a hb h0 => exact .inl ⟨a, _, _, rfl, hb, h0, rfl⟩
    | push a h0 => exact .inr (.inl ⟨a, .inl rfl, h0, rfl⟩)
    | call a h0 => exact .inr (.inl ⟨a, .inr rfl, h0, rfl⟩)
    | pop ha htop => exact .inr (.inr (.inl ⟨_, rfl, (sp_writeReg_of_operand ha _ s).symm.trans htop, rfl⟩))
    | ret htop => exact .inr (.inr (.inr ⟨rfl, htop, rfl⟩))

end Sys2Proof.Machine
end

section
/-! Proofs: what LDI, PRN and HLT do where they complete (41_load_print_halt.md). Each is the equation of its meaning
once the register check has passed; the statement writes the updates of that equation out field by field. -/

namespace Sys2Proof.Machine

/-- Settles O24: past the register check LDI is a register write followed by an advance, by `execLdi_eq`. -/
theorem ldiLoadsTheImmediate : Obligations.LdiLoadsTheImmediate := fun s a imm ra ha =>
  calc exec (.ldi a imm) s
    _ = execLdi a imm s := exec_ldi a imm s
    _ = .next (advance .f2ri (writeReg ra imm s)) := execLdi_eq ha imm s

/-- Settles O25: past the register check PRN is an output followed by an advance, by `execPrn_eq`. -/
theorem prnEmitsTheRegister : Obligations.PrnEmitsTheRegister := fun s a ra ha =>
  calc exec (.prn a) s
    _ = execPrn a s := exec_prn a s
    _ = .next (advance .f1r (output (readReg s ra) s)) := execPrn_eq ha s

/-- Settles O26: HLT is `halt` alone, with no register to check and no advance. -/
theorem hltHaltsInPlace : Obligations.HltHaltsInPlace := exec_hlt

end Sys2Proof.Machine
end

section
/-! Proofs: the ALU and the five instructions that use it (42_alu.md). The rows of the ALU's table are stated on exact
integers; an instruction whose register operands are good does what its row says. -/

namespace Sys2Proof.Machine

/-! The ALU's table, row by row (R120, R127). -/

section Table

variable (va vb : Byte)

theorem aluApply_add : aluApply .add va vb = .value (BitVec.ofNat 8 ((va.toNat + vb.toNat) % 256)) :=
  congrArg AluResult.value (BitVec.eq_of_toNat_eq (by simp))

theorem aluApply_sub : aluApply .sub va vb = .value (BitVec.ofInt 8 (((va.toNat : Int) - vb.toNat) % 256)) := by
  have hsub : va - vb = BitVec.ofInt 8 (((va.toNat : Int) - vb.toNat) % 256) := by
    apply BitVec.eq_of_toNat_eq
    rw [BitVec.toNat_sub, BitVec.toNat_ofInt]
    omega
  exact congrArg AluResult.value hsub

theorem aluApply_mul : aluApply .mul va vb = .value (BitVec.ofNat 8 ((va.toNat * vb.toNat) % 256)) :=
  congrArg AluResult.value (BitVec.eq_of_toNat_eq (by simp))

theorem aluApply_other : aluApply .other va vb = .fault .unsupportedOperation := rfl

variable {va vb}

theorem aluApply_div_by_zero (h : vb = 0) : aluApply .div va vb = .fault .divisionByZero := if_pos h

theorem aluApply_div_of_ne_zero (h : vb ≠ 0) :
    aluApply .div va vb = .value (BitVec.ofNat 8 (va.toNat / vb.toNat)) := by
  rw [← BitVec.udiv_def]
  exact if_neg h

theorem compareFlags_of_eq (h : va.toNat = vb.toNat) : compareFlags va vb = flagE := if_pos (BitVec.eq_of_toNat_eq h)

theorem compareFlags_of_gt (h : va.toNat > vb.toNat) : compareFlags va vb = flagG := by
  have hne : va ≠ vb := ne_of_apply_ne BitVec.toNat h.ne'
  rw [compareFlags, if_neg hne, if_pos h]

theorem compareFlags_of_lt (h : va.toNat < vb.toNat) : compareFlags va vb = flagL := by
  have hne : va ≠ vb := ne_of_apply_ne BitVec.toNat h.ne
  rw [compareFlags, if_neg hne, if_neg h.asymm]

end Table

/-- Settles O23: the rows of the table, CMP's by the order of the two values. -/
theorem aluApplyFollowsItsTable : Obligations.AluApplyFollowsItsTable := fun va vb =>
  ⟨aluApply_add va vb, aluApply_sub va vb, aluApply_mul va vb,
    fun h => aluApply_div_by_zero (BitVec.eq_of_toNat_eq h),
    fun h => aluApply_div_of_ne_zero (ne_of_apply_ne BitVec.toNat h),
    fun h => congrArg AluResult.flags (compareFlags_of_eq h),
    fun h => congrArg AluResult.flags (compareFlags_of_gt h),
    fun h => congrArg AluResult.flags (compareFlags_of_lt h),
    aluApply_other va vb⟩

/-! The bits of the flags CMP computes (R27, R125). -/

theorem compareFlags_order_bits (va vb : Byte) :
    (compareFlags va vb).getLsbD 0 = decide (va.toNat = vb.toNat) ∧
      (compareFlags va vb).getLsbD 1 = decide (va.toNat > vb.toNat) ∧
      (compareFlags va vb).getLsbD 2 = decide (va.toNat < vb.toNat) := by
  rcases lt_trichotomy va.toNat vb.toNat with h | h | h
  · simp [compareFlags_of_lt h, flagL, h, h.ne, h.le]
  · simp [compareFlags_of_eq h, flagE, h]
  · simp [compareFlags_of_gt h, flagG, h, h.ne', h.le]

theorem compareFlags_high_bits (va vb : Byte) {k : Nat} (hk : 3 ≤ k) : (compareFlags va vb).getLsbD k = false := by
  have hsmall : (compareFlags va vb).toNat < 2 ^ 3 := by
    rcases compareFlags_cases va vb with h | h | h <;> rw [h] <;> decide
  exact Nat.testBit_lt_two_pow (hsmall.trans_le (Nat.pow_le_pow_right (by decide) hk))

/-! The engine's part, by the ALU's answer. -/

section Engine

variable {op : AluOp} {a b : Byte} {ra rb : Reg} {s : State} (ha : a.toNat = ra.val) (hb : b.toNat = rb.val)
include ha hb

theorem execAlu_of_value {v : Byte} (h : aluApply op (readReg s ra) (readReg s rb) = .value v) :
    execAlu op a b s = .next { s with regs := s.regs.set ra v, pc := s.pc + 3 } := by
  rw [execAlu_eq op ha hb, h]
  rfl

theorem execAlu_of_flags {f : Byte} (h : aluApply op (readReg s ra) (readReg s rb) = .flags f) :
    execAlu op a b s = .next { s with fl := f, pc := s.pc + 3 } := by
  rw [execAlu_eq op ha hb, h]
  rfl

theorem execAlu_of_fault {k : FaultKind} (h : aluApply op (readReg s ra) (readReg s rb) = .fault k) :
    execAlu op a b s = .next { s with run := .halted, err := some ⟨k, s.pc⟩ } := by
  rw [execAlu_eq op ha hb, h]
  rfl

end Engine

/-- Settles O31: CMP writes the flags of the ALU's answer, whose bits the order of the two values decides. -/
theorem cmpSetsExactlyOneFlag : Obligations.CmpSetsExactlyOneFlag := by
  intro s a b ra rb ha hb
  obtain ⟨hE, hG, hL⟩ := compareFlags_order_bits (readReg s ra) (readReg s rb)
  exact ⟨compareFlags (readReg s ra) (readReg s rb), (exec_cmp a b s).trans (execAlu_of_flags ha hb rfl),
    hE, hG, hL, fun _ hk => compareFlags_high_bits _ _ hk⟩

/-- Settles O27, by the row of ADD. -/
theorem addStoresTheWrappedSum : Obligations.AddStoresTheWrappedSum := fun s a b _ _ ha hb =>
  (exec_add a b s).trans (execAlu_of_value ha hb (aluApply_add _ _))

/-- Settles O28, by the row of SUB. -/
theorem subStoresTheWrappedDifference : Obligations.SubStoresTheWrappedDifference := fun s a b _ _ ha hb =>
  (exec_sub a b s).trans (execAlu_of_value ha hb (aluApply_sub _ _))

/-- Settles O29, by the row of MUL. -/
theorem mulStoresTheWrappedProduct : Obligations.MulStoresTheWrappedProduct := fun s a b _ _ ha hb =>
  (exec_mul a b s).trans (execAlu_of_value ha hb (aluApply_mul _ _))

/-- Settles O30, by the row of DIV for a divisor other than 0. -/
theorem divStoresTheFloorQuotient : Obligations.DivStoresTheFloorQuotient := fun s a b _ _ ha hb h0 =>
  (exec_div a b s).trans (execAlu_of_value ha hb (aluApply_div_of_ne_zero h0))

/-- Settles O20: the ALU answers DivisionByZero, and the engine takes that fault. -/
theorem divByZeroChangesOnlyRunAndErr : Obligations.DivByZeroChangesOnlyRunAndErr := fun s a b _ _ ha hb h0 =>
  (exec_div a b s).trans (execAlu_of_fault ha hb (aluApply_div_by_zero h0))

end Sys2Proof.Machine
end

section
/-! Proofs: the jumps where they complete (43_branch.md). A branch loads or advances the program counter by the answer of
the branch unit, and that answer is bit E of the flags, its negation, or yes. -/

namespace Sys2Proof.Machine

/-- Loading the program counter, with the zero extension written as a number (R141). -/
theorem jump_eq_ofNat (v : Byte) (s : State) : jump v s = { s with pc := BitVec.ofNat 9 v.toNat } := by
  rw [BitVec.ofNat_toNat, jump]

section Branch

variable {op : BranchOp} {a : Byte} {ra : Reg} {s : State} (ha : a.toNat = ra.val)
include ha

theorem execBranch_of_taken (h : taken op s.fl = true) :
    execBranch op a s = .next { s with pc := BitVec.ofNat 9 (readReg s ra).toNat } := by
  rw [execBranch_eq op ha, if_pos h, jump_eq_ofNat]

theorem execBranch_of_not_taken (h : taken op s.fl = false) :
    execBranch op a s = .next { s with pc := s.pc + 2 } := by
  rw [execBranch_eq op ha, if_neg (Bool.eq_false_iff.1 h)]
  rfl

end Branch

/-- Settles O32: the branch unit answers JMP with yes, whatever the flags. -/
theorem jmpLoadsPc : Obligations.JmpLoadsPc := fun s a _ ha =>
  (exec_jmp a s).trans (execBranch_of_taken ha rfl)

/-- Settles O33: the branch unit answers JEQ with bit E and JNE with its negation. -/
theorem jeqAndJneFollowTheEqualFlag : Obligations.JeqAndJneFollowTheEqualFlag := by
  intro s a ra ha
  have jeq_answer : taken .jeq s.fl = s.fl.getLsbD 0 := rfl
  have jne_answer : taken .jne s.fl = !s.fl.getLsbD 0 := rfl
  rw [exec_jeq, exec_jne]
  refine ⟨fun hE => ?_, fun hE => ?_⟩ <;> rw [hE] at jeq_answer jne_answer
  · exact ⟨execBranch_of_taken ha jeq_answer, execBranch_of_not_taken ha jne_answer⟩
  · exact ⟨execBranch_of_not_taken ha jeq_answer, execBranch_of_taken ha jne_answer⟩

end Sys2Proof.Machine
end

section
/-! Proofs: the stack (44_stack.md). What PUSH and POP leave where they complete is written as a state of its own; that POP
undoes PUSH is proved of those, and the list statements are inductions with one PUSH and one POP a step. -/

namespace Sys2Proof

/-- PUSH, POP, CALL and RET, which move the stack pointer (R153, R154, R160, R161). -/
def Instr.isStack : Instr → Bool
  | .push _ | .pop _ | .call _ | .ret => true
  | _ => false

end Sys2Proof

namespace Sys2Proof.Machine

/-! At the two ends of the stack. -/

/-- Settles O21: the equations of PUSH and CALL, at a stack pointer of 0. -/
theorem pushBelowZeroRaisesAddressOutOfRange : Obligations.PushBelowZeroRaisesAddressOutOfRange := by
  intro s a ra ha h0
  rw [exec_push, exec_call, execPush_eq ha, execCall_eq ha, if_pos h0, if_pos h0]
  exact ⟨rfl, rfl⟩

/-- POP faults where the stack pointer it would raise, read after the popped byte is delivered, is 255 (R154). -/
theorem exec_pop_fault {a : Byte} {ra : Reg} {s : State} (ha : a.toNat = ra.val)
    (htop : sp (writeReg ra (readByte s (sp s).toNat) s) = 255) :
    exec (.pop a) s = .next (faulted .addressOutOfRange s) := by
  rw [exec_pop, execPop_eq ha, if_pos htop]

/-- Settles O22: the stack pointer POP raises is the popped byte where R7 is the destination, and the old one elsewhere. -/
theorem popAboveTopRaisesAddressOutOfRange : Obligations.PopAboveTopRaisesAddressOutOfRange := by
  refine ⟨fun s a ra ha h7 htop => ?_, fun s htop => ?_, fun s htop => ?_⟩
  · exact exec_pop_fault ha ((sp_writeReg_other s ra _ h7.symm).trans htop)
  · exact exec_pop_fault (ra := 7) rfl ((sp_writeReg_sp s _).trans htop)
  · rw [exec_ret, execRet_eq, if_pos htop]
    rfl

/-! PUSH where it completes. -/

/-- The state PUSH of a register leaves, from a stack pointer above 0 (R153). -/
def pushed (ra : Reg) (s : State) : State :=
  advance .f1r (writeByte (sp s - 1).toNat (readReg (writeReg Config.spIndex (sp s - 1) s) ra)
    (writeReg Config.spIndex (sp s - 1) s))

theorem exec_push_eq_pushed {a : Byte} {ra : Reg} {s : State} (ha : a.toNat = ra.val) (h0 : sp s ≠ 0) :
    exec (.push a) s = .next (pushed ra s) := by
  rw [exec_push, execPush_eq ha, if_neg h0, pushed]

section Pushed

variable (ra : Reg) (s : State)

theorem sp_pushed : sp (pushed ra s) = sp s - 1 := sp_writeReg_sp s _

theorem readReg_pushed_other {r : Reg} (h : r ≠ 7) : readReg (pushed ra s) r = readReg s r :=
  readReg_writeReg_other s _ r _ h

theorem readByte_pushed_other {n : Nat} (h : n ≠ (sp (pushed ra s)).toNat) :
    readByte (pushed ra s) n = readByte s n := by
  rw [sp_pushed] at h
  exact readByte_writeByte_other _ _ n _ h

end Pushed

/-- Settles O34: the state left is `pushed`; what it holds at and below the old stack pointer is `exec_push_next`. -/
theorem pushStoresBelowTheStackPointer : Obligations.PushStoresBelowTheStackPointer := by
  intro s a ra ha h0
  have hpush := exec_push_eq_pushed ha h0
  obtain ⟨hpc, hrun, hsp, htop⟩ := exec_push_next ha h0 hpush
  exact ⟨pushed ra s, hpush, hsp, htop, fun _ => readByte_pushed_other ra s, fun _ => readReg_pushed_other ra s,
    hpc, rfl, hrun, rfl, rfl⟩

/-! POP and RET where they complete. -/

/-- The state POP leaves, where the stack pointer can be raised after the popped byte is delivered (R154). -/
def popped (ra : Reg) (s : State) : State :=
  advance .f1r (writeReg Config.spIndex (sp (writeReg ra (readByte s (sp s).toNat) s) + 1)
    (writeReg ra (readByte s (sp s).toNat) s))

theorem exec_pop_eq_popped {a : Byte} {ra : Reg} {s : State} (ha : a.toNat = ra.val)
    (htop : sp (writeReg ra (readByte s (sp s).toNat) s) ≠ 255) :
    exec (.pop a) s = .next (popped ra s) := by
  rw [exec_pop, execPop_eq ha, if_neg htop, popped]

section Popped

variable (ra : Reg) (s : State)

theorem sp_popped : sp (popped ra s) = sp (writeReg ra (readByte s (sp s).toNat) s) + 1 := sp_writeReg_sp _ _

theorem readReg_popped {r : Reg} (h : r ≠ 7) :
    readReg (popped ra s) r = if r = ra then readByte s (sp s).toNat else readReg s r :=
  (readReg_writeReg_other _ _ r _ h).trans (readReg_writeReg s ra r _)

end Popped

theorem toNat_add_one_of_ne_255 {v : Byte} (h : v ≠ 255) : (v + 1).toNat = v.toNat + 1 := by
  bv_omega

/-- Settles O35: delivering the byte to a register other than R7 leaves the stack pointer to be raised as it was. -/
theorem popLoadsFromTheStackPointer : Obligations.PopLoadsFromTheStackPointer := by
  intro s a ra ha h7 htop
  have hsp : sp (writeReg ra (readByte s (sp s).toNat) s) = sp s := sp_writeReg_other s ra _ h7.symm
  refine ⟨popped ra s, exec_pop_eq_popped ha (by rwa [hsp]), ?_, ?_, fun r hra hr => ?_, rfl, rfl, rfl, rfl, rfl, rfl⟩
  · rw [readReg_popped ra s h7, if_pos rfl]
  · rw [sp_popped, hsp, toNat_add_one_of_ne_255 htop]
  · rw [readReg_popped ra s hr, if_neg hra]

/-- Settles O36: the stack pointer raised is the byte just delivered to it. -/
theorem popOfR7EndsAtThePoppedBytePlusOne : Obligations.PopOfR7EndsAtThePoppedBytePlusOne := by
  intro s htop
  have hsp : sp (writeReg 7 (readByte s (sp s).toNat) s) = readByte s (sp s).toNat := sp_writeReg_sp s _
  refine ⟨popped 7 s, exec_pop_eq_popped rfl (by rwa [hsp]), ?_, fun r hr => ?_, rfl, rfl, rfl, rfl, rfl, rfl⟩
  · rw [sp_popped, hsp, toNat_add_one_of_ne_255 htop]
  · rw [readReg_popped 7 s hr, if_neg hr]

/-- Settles O38: the equation of RET, at a stack pointer below 255. -/
theorem retPopsIntoPc : Obligations.RetPopsIntoPc := by
  intro s htop
  refine ⟨jump (readByte s (sp s).toNat) (writeReg Config.spIndex (sp s + 1) s), ?_, ?_, ?_, fun r hr => ?_,
    rfl, rfl, rfl, rfl, rfl⟩
  · rw [exec_ret, execRet_eq, if_neg htop]
  · rw [jump_pc, BitVec.toNat_setWidth_of_le (by decide)]
  · rw [sp_jump, sp_writeReg_sp, toNat_add_one_of_ne_255 htop]
  · rw [readReg_jump, readReg_writeReg_other s _ r _ hr]

/-! Frames. -/

/-- A stack instruction changes no flag and no output, and neither run nor err but by a fault. -/
theorem Effect.status_of_isStack {s t : State} {i : Instr} (h : Effect s i t) (hi : i.isStack = true) :
    t.fl = s.fl ∧ t.out = s.out ∧ sameControlOrFault s t := by
  refine ⟨h.fl_eq ?_, h.out_eq ?_, h.control_or_fault ?_⟩
  · rintro _ _ rfl
    cases hi
  · rintro _ rfl
    cases hi
  · rintro rfl
    cases hi

/-- Of the registers an instruction changes only the stack pointer and the one that takes its result. -/
theorem Effect.readReg_eq {s t : State} {i : Instr} {r : Reg} (h : Effect s i t) (h7 : r ≠ 7)
    (hres : ∀ a, i.resultOperand = some a → a.toNat ≠ r.val) (hpop : ∀ a, i = .pop a → a.toNat ≠ r.val) :
    readReg t r = readReg s r := by
  have other {a : Byte} {ra : Reg} (ha : a.toNat = ra.val) (hne : a.toNat ≠ r.val) (v : Byte) :
      readReg (writeReg ra v s) r = readReg s r :=
    readReg_writeReg_other s ra r v fun e => hne (e ▸ ha)
  have moved (u : State) (v : Byte) : readReg (writeReg Config.spIndex v u) r = readReg u r :=
    readReg_writeReg_other u _ r v h7
  cases h with
  | result v f hi ha => exact other ha (hres _ hi) v
  | pop v w ha => exact (moved _ w).trans (other ha (hpop _ rfl) v)
  | push | call | ret => exact moved s _
  | _ => rfl

/-- Settles O41: the one cell a storing instruction can change is just below the stack pointer (`Effect.readByte_changed`),
which is the cell the lowered stack pointer names; a bad operand leaves no effect but the fault. -/
theorem frameOfStoringInstructions : Obligations.FrameOfStoringInstructions := by
  intro i a s t hi h
  have he := exec_effect h
  have kept {n : Nat} (hn : n + 1 ≠ (sp s).toNat) : readByte t n = readByte s n := by
    by_contra hc
    obtain ⟨hcell, -⟩ := he.readByte_changed hc
    exact hn hcell
  refine ⟨fun s1 h1 n hn => ?_, fun hno n => ?_, fun hbad n => ?_, fun r hr => ?_, ?_⟩
  · by_cases h0 : sp s = 0
    · rw [moveSp_down, if_pos h0] at h1
      cases h1
    · rw [moveSp_down, if_neg h0, Except.ok.injEq] at h1
      rw [← h1, sp_writeReg_sp] at hn
      have hcell := sp_sub_one_toNat h0
      exact kept (by omega)
  · have h0 : sp s = 0 := by
      by_contra h0
      exact hno _ ((moveSp_down s).trans (if_neg h0))
    exact kept (by simp [h0])
  · have hwf : i.wf = false := by rcases hi with rfl | rfl <;> exact hbad
    rw [badRegisterByteRaisesInvalidRegister i s hwf, Host.Outcome.next.injEq] at h
    rw [← h]
    rfl
  · refine he.readReg_eq hr ?_ ?_ <;> rcases hi with rfl | rfl <;> rintro b ⟨⟩
  · exact he.status_of_isStack (by rcases hi with rfl | rfl <;> rfl)

/-- Settles O42: only PUSH and CALL change Memory; the registers are those of `Effect.readReg_eq`. -/
theorem frameOfPoppingInstructions : Obligations.FrameOfPoppingInstructions := by
  intro i a s t hi h
  have he := exec_effect h
  refine ⟨fun n => ?_, fun r hr hdest => he.readReg_eq hr ?_ ?_, ?_⟩
  · by_contra hc
    obtain ⟨-, b, hb⟩ := he.readByte_changed hc
    rcases hi with rfl | rfl <;> simp at hb
  · rcases hi with rfl | rfl <;> rintro b ⟨⟩
  · rcases hi with rfl | rfl <;> rintro b ⟨⟩
    exact hdest rfl
  · exact he.status_of_isStack (by rcases hi with rfl | rfl <;> rfl)

/-! POP undoes PUSH. -/

/-- POP of a register from a state with the registers PUSH of it left and the pushed byte still on top gives every register
back: after the byte is delivered the stack pointer is one below the old one, for R7 because that is the byte pushed. -/
theorem exec_pop_of_pushed {a : Byte} {ra : Reg} {s t : State} (ha : a.toNat = ra.val) (h0 : sp s ≠ 0)
    (hregs : ∀ r, readReg t r = readReg (pushed ra s) r)
    (htop : readByte t (sp (pushed ra s)).toNat = readByte (pushed ra s) (sp (pushed ra s)).toNat) :
    exec (.pop a) t = .next (popped ra t) ∧ ∀ r, readReg (popped ra t) r = readReg s r := by
  obtain ⟨-, -, -, hbyte⟩ := exec_push_next ha h0 (exec_push_eq_pushed ha h0)
  have hspt : sp t = sp (pushed ra s) := hregs 7
  have hval : readByte t (sp t).toNat = if ra = 7 then sp s - 1 else readReg s ra := by
    rw [hspt, htop, hbyte, sp_pushed]
  have hlow : sp (writeReg ra (readByte t (sp t).toNat) t) = sp s - 1 := by
    by_cases h7 : ra = 7
    · rw [hval, if_pos h7, h7]
      exact sp_writeReg_sp t _
    · rw [sp_writeReg_other t ra _ (Ne.symm h7), hspt, sp_pushed]
  refine ⟨exec_pop_eq_popped ha ?_, fun r => ?_⟩
  · rw [hlow]
    bv_omega
  · by_cases hr : r = 7
    · subst hr
      calc sp (popped ra t)
        _ = sp s - 1 + 1 := by rw [sp_popped, hlow]
        _ = sp s := by bv_omega
    · rw [readReg_popped ra t hr]
      split
      · next hra => rw [hval, ← hra, if_neg hr]
      · rw [hregs, readReg_pushed_other ra s hr]

/-- Settles O48: POP directly after PUSH. -/
theorem pushThenPopRestoresTheRegister : Obligations.PushThenPopRestoresTheRegister := by
  intro s a ra ha h0
  obtain ⟨hpop, hback⟩ := exec_pop_of_pushed (t := pushed ra s) ha h0 (fun _ => rfl) rfl
  refine ⟨pushed ra s, popped ra (pushed ra s), exec_push_eq_pushed ha h0, hpop, hback, ?_⟩
  calc s.pc + 2 + 2
    _ = s.pc + 4 := by rw [BitVec.add_assoc]; rfl

/-! Lists of instructions. -/

theorem execAll_cons {i : Instr} {s t : State} (hr : s.run = .running) (h : exec i s = .next t) (is : List Instr) :
    execAll (i :: is) s = execAll is t := by
  simp only [execAll, hr, h]

theorem execAll_append {is js : List Instr} {s t : State} (h : execAll is s = .next t) :
    execAll (is ++ js) s = execAll js t := by
  induction is generalizing s with
  | nil =>
    obtain rfl := Host.Outcome.next.inj h
    rfl
  | cons i is ih =>
    cases hr : s.run with
    | halted => simp [execAll, hr] at h
    | running =>
      obtain ⟨u, hu⟩ := exec_next i s
      rw [execAll_cons hr hu] at h
      rw [List.cons_append, execAll_cons hr hu, ih h]

/-- Settles O50, by induction on the list: the pushes and pops after the first PUSH leave the byte it pushed, and the POP
that ends the run takes it back (`exec_pop_of_pushed`). -/
theorem stackIsLastInFirstOut : Obligations.StackIsLastInFirstOut := by
  intro s as
  induction as generalizing s with
  | nil => exact fun _ _ _ => ⟨s, rfl, fun _ => rfl, fun _ _ => rfl, rfl, rfl, rfl, rfl⟩
  | cons a as ih =>
    intro hr hnames hroom
    obtain ⟨ra, ha⟩ := (namesRegister_iff a).1 (hnames a List.mem_cons_self)
    rw [List.length_cons] at hroom
    have h0 : sp s ≠ 0 := by bv_omega
    have hpush := exec_push_eq_pushed ha h0
    obtain ⟨-, -, hsp, -⟩ := exec_push_next ha h0 hpush
    obtain ⟨t, hrun, hregs, hcells, hfl, htr, herr, hout⟩ :=
      ih (pushed ra s) hr (fun b hb => hnames b (List.mem_cons_of_mem a hb)) (by omega)
    obtain ⟨hpop, hback⟩ := exec_pop_of_pushed ha h0 hregs (hcells _ le_rfl)
    refine ⟨popped ra t, ?_, hback, fun n hn => ?_, hfl, htr, herr, hout⟩
    · calc execAll ((a :: as).map .push ++ (a :: as).reverse.map .pop) s
        _ = execAll (.push a :: ((as.map .push ++ as.reverse.map .pop) ++ [.pop a])) s := by simp
        _ = execAll ((as.map .push ++ as.reverse.map .pop) ++ [.pop a]) (pushed ra s) := execAll_cons hr hpush _
        _ = execAll [.pop a] t := execAll_append hrun
        _ = .next (popped ra t) := execAll_cons (htr.trans hr) hpop []
    · calc readByte t n
        _ = readByte (pushed ra s) n := hcells n (by omega)
        _ = readByte s n := readByte_pushed_other ra s (by omega)

/-- As many pushes as the stack pointer says succeed, and leave it at 0. -/
theorem execAll_replicate_push {a : Byte} {ra : Reg} (ha : a.toNat = ra.val) (n : Nat) {s : State}
    (hr : s.run = .running) (hn : (sp s).toNat = n) :
    ∃ t, execAll (List.replicate n (.push a)) s = .next t ∧ t.run = .running ∧ sp t = 0 := by
  induction n generalizing s with
  | zero => exact ⟨s, rfl, hr, BitVec.eq_of_toNat_eq hn⟩
  | succ n ih =>
    have h0 : sp s ≠ 0 := by bv_omega
    have hpush := exec_push_eq_pushed ha h0
    obtain ⟨-, -, hsp, -⟩ := exec_push_next ha h0 hpush
    rw [List.replicate_succ, execAll_cons hr hpush]
    exact ih hr (by omega)

/-- Settles O51: the pushes that succeed are `execAll_replicate_push`, and the next one is O21's. -/
theorem stackHoldsAsManyEntriesAsItsPointerSays : Obligations.StackHoldsAsManyEntriesAsItsPointerSays := by
  intro s a hr hname
  obtain ⟨ra, ha⟩ := (namesRegister_iff a).1 hname
  obtain ⟨t, hall, htr, h0⟩ := execAll_replicate_push ha _ hr rfl
  obtain ⟨hfault, -⟩ := pushBelowZeroRaisesAddressOutOfRange t a ra ha h0
  exact ⟨t, hall, htr, h0, hfault⟩

end Sys2Proof.Machine
end

section
/-! Proofs: CALL where it completes, and CALL followed by RET. -/

namespace Sys2Proof.Machine

/-- The return address fits the byte CALL pushes: a fetch has read the two bytes after the CALL's first (R163). -/
theorem returnAddress_toNat {s : State} (hp : s.pc.toNat ≤ 253) : (returnAddress s).toNat = s.pc.toNat + 2 := by
  have hsum : (s.pc + BitVec.ofNat 9 (width .f1r)).toNat = s.pc.toNat + 2 := (advance_pc_toNat .f1r s hp).1
  rw [returnAddress, BitVec.toNat_setWidth, hsum]
  omega

/-- The state CALL of a register leaves, from a stack pointer above 0 (R160). -/
def called (ra : Reg) (s : State) : State :=
  jump (readReg (writeReg Config.spIndex (sp s - 1) s) ra)
    (writeByte (sp s - 1).toNat (returnAddress s) (writeReg Config.spIndex (sp s - 1) s))

theorem exec_call_eq_called {a : Byte} {ra : Reg} {s : State} (ha : a.toNat = ra.val) (h0 : sp s ≠ 0) :
    exec (.call a) s = .next (called ra s) := by
  rw [exec_call, execCall_eq ha, if_neg h0, called]

section Called

variable (ra : Reg) (s : State)

theorem sp_called : sp (called ra s) = sp s - 1 := sp_writeReg_sp s _

theorem readByte_called (n : Nat) :
    readByte (called ra s) n = if n = (sp (called ra s)).toNat then returnAddress s else readByte s n := by
  rw [sp_called]
  exact readByte_writeByte _ _ n _

theorem called_pc_toNat :
    (called ra s).pc.toNat = (if ra = 7 then sp (called ra s) else readReg s ra).toNat := by
  rw [sp_called, called, jump_pc, BitVec.toNat_setWidth_of_le (by decide), readReg_writeReg]

end Called

/-- Settles O37: the state left is `called`, and the return address fits a byte. -/
theorem callPushesTheReturnAddress : Obligations.CallPushesTheReturnAddress := by
  intro s a ra ha h0 hp
  refine ⟨called ra s, exec_call_eq_called ha h0, ?_, ?_, called_pc_toNat ra s, fun n hn => ?_, fun r hr => ?_,
    rfl, rfl, rfl, rfl⟩
  · rw [sp_called, sp_sub_one_toNat h0]
  · rw [readByte_called, if_pos rfl, returnAddress_toNat hp]
  · rw [readByte_called, if_neg hn]
  · exact readReg_writeReg_other s _ r _ hr

/-- Settles O49, from what CALL leaves (`callPushesTheReturnAddress`) and what RET does there (`retPopsIntoPc`): the stack
pointer CALL lowered is below 255, and the byte it names is the return address. -/
theorem callThenRetReturnsAfterTheCall : Obligations.CallThenRetReturnsAfterTheCall := by
  intro s a ra ha h0 hp
  obtain ⟨t, hcall, hsp, hret, -, -, hregs, -⟩ := callPushesTheReturnAddress s a ra ha h0 hp
  have htop : sp t ≠ 255 := by bv_omega
  obtain ⟨u, hexec, hpc, hspu, hregsu, -⟩ := retPopsIntoPc t htop
  refine ⟨t, u, hcall, hexec, hpc.trans hret, fun r => ?_⟩
  by_cases hr : r = 7
  · subst hr
    exact BitVec.eq_of_toNat_eq (hspu.trans hsp)
  · exact (hregsu r hr).trans (hregs r hr)

end Sys2Proof.Machine
end

section
/-! Proofs: the faults a step takes, in the fetch, in the decoder or in the instruction (60_exceptions.md). -/

namespace Sys2Proof.Machine

/-- An engine that took a fault is halted and has no step (R90, R175). -/
theorem step_faulted (k : FaultKind) (s : State) : step (faulted k s) = .fault .halted := rfl

/-- Settles O13: the fault is the decoder's, or above 253 the fetch's (O12), and either halts the engine. -/
theorem unknownOpcodeRaisesIllegalInstructionOnce : Obligations.UnknownOpcodeRaisesIllegalInstructionOnce := by
  intro s hr hunknown
  rcases le_or_gt s.pc.toNat 253 with hp | hp
  · exact ⟨_, step_of_unknown_opcode hr hp hunknown, step_faulted _ s,
      fun _ => rfl, fun hp' => absurd hp hp'.not_ge⟩
  · exact ⟨_, unfetchablePcRaisesAddressOutOfRange s hr hp, step_faulted _ s,
      fun hp' => absurd hp hp'.not_gt, fun _ => rfl⟩

/-- `StepFaultCause s k`: why a step from `s` takes fault `k`, in the order of the cycle (R178). -/
inductive StepFaultCause (s : State) : FaultKind → Prop
  /-- A byte to fetch lies outside Memory. -/
  | fetch (hp : 253 < s.pc.toNat) : StepFaultCause s .addressOutOfRange
  /-- The opcode byte is in no row. -/
  | opcode (hunknown : ∀ m, Sys2Proof.opcode m ≠ readByte s s.pc.toNat) : StepFaultCause s .illegalInstruction
  /-- The decoded instruction takes the fault. -/
  | instr {i : Instr} {k : FaultKind}
      (hdec : decode (readByte s s.pc.toNat) (readByte s (s.pc.toNat + 1)) (readByte s (s.pc.toNat + 2)) = .ok i)
      (hcause : FaultCause s i k) : StepFaultCause s k

/-- A step leaves the error record as it was, or takes a fault that has a cause. -/
theorem step_err_or_cause {s t : State} (h : step s = .next t) :
    t.err = s.err ∨ ∃ k, StepFaultCause s k ∧ t = faulted k s := by
  obtain ⟨hr, -⟩ := step_cases h
  rw [step, hr] at h
  rcases cycle_cases h with ⟨hp, rfl⟩ | ⟨-, hnone, rfl⟩ | ⟨-, m, hm, he⟩
  · exact .inr ⟨_, .fetch hp, rfl⟩
  · exact .inr ⟨_, .opcode ((lookupOpcode_none_iff _).1 hnone), rfl⟩
  · exact (exec_err_or_cause he).imp_right fun ⟨k, hcause, ht⟩ =>
      ⟨k, .instr (decode_ok_iff.2 ⟨m, hm, rfl⟩) hcause, ht⟩

/-- Settles O17: a step that changes the error record takes a fault. -/
theorem faultsArePrecise : Obligations.FaultsArePrecise := fun _ _ h herr =>
  have ⟨k, _, ht⟩ := (step_err_or_cause h).resolve_left herr
  ⟨k, ht⟩

/-- Settles O19: DIV by zero takes the fault (O20), and of the causes of a step's fault a zero divisor alone gives
DivisionByZero. -/
theorem divisionByZeroIsRaisedByDivAlone : Obligations.DivisionByZeroIsRaisedByDivAlone := by
  refine ⟨fun s a b ra rb ha hb h0 => ⟨_, s.pc, divByZeroChangesOnlyRunAndErr s a b ra rb ha hb h0, rfl, rfl, rfl⟩,
    fun s t p h herr hkind => ?_⟩
  obtain ⟨k, hcause, rfl⟩ := (step_err_or_cause h).resolve_left herr
  obtain rfl : k = .divisionByZero := congrArg ErrRecord.kind (Option.some.inj hkind)
  refine ⟨rfl, rfl, ?_⟩
  cases hcause with
  | instr hdec hcause =>
    cases hcause with
    | divisor a hb h0 => exact ⟨a, _, _, hdec, hb, h0⟩

end Sys2Proof.Machine
end

section
/-! Proofs: what the Loader does to the state (70_reset_and_hazards.md R202). -/

namespace Sys2Proof.Machine

/-- An image that fits is placed from address 0, and the Loader changes no other field. -/
theorem load_of_length_le {image : List Byte} (h : image.length ≤ Config.memSize) (s : State) :
    load image s = some { s with mem := placeBytes s.mem 0 image } := if_pos h

/-- A cell the image reaches holds the image's byte. -/
theorem memGet_placeBytes_zero {image : List Byte} {k : Nat} (hk : k < image.length) (h256 : k < 256) (m : Memory) :
    memGet (placeBytes m 0 image) k = image[k] := by
  simpa [hk] using memGet_placeBytes image m 0 k h256

/-- Settles O53: the image's cells hold its bytes, and a cell beyond the image is left as at reset. -/
theorem loaderPlacesTheImage : Obligations.LoaderPlacesTheImage := fun _ hlen =>
  ⟨_, load_of_length_le hlen State.reset,
    fun _ hk => memGet_placeBytes_zero hk (hk.trans_le hlen) State.reset.mem,
    fun _ hk _ => memGet_placeBytes_outside (m := State.reset.mem) (.inr (by simpa using hk)),
    rfl, rfl, rfl, rfl, rfl, rfl⟩

end Sys2Proof.Machine
end
